-- ==== Sys2Proof/Word.lean ====
section
/-! DEFINITION. The widths of the WARCH core: the 64-bit word, the byte of the console ports and of the boot image,
and the 32-bit instruction word. -/

namespace Sys2Proof

/-- A register cell, a memory word, the pc, a segment id and a segment index: 64 bits, read as unsigned (R5, R6, R15; C1). -/
abbrev Word := BitVec 64

/-- A byte of the console ports and of the boot image (R26, R27, R113). -/
abbrev Byte := BitVec 8

/-- An instruction word (R52). -/
abbrev InstrWord := BitVec 32

/-- `2^XLEN`: one more than the largest `Word` (R5, R6). -/
abbrev wordLimit : Nat := 2 ^ 64

/-- The all-ones word, `2^64 - 1`: the "no input" sentinel of In (R97). -/
abbrev Word.allOnes : Word := BitVec.allOnes 64

end Sys2Proof
end

