-- ==== Sys2Proof/Machine/Memory.lean ====
section
/-! DEFINITION. The segmented memory as plain data (20_memory.md R33) in one canonical form.

A segment can be up to `2^64 - 1` words long, so its cells are held sparsely: a cell that is not listed reads 0, what the
allocator fills a new segment with (R37). The unit of memory is the 64-bit word and the key is its index in the segment:
memory holds words, not bytes, and no byte order applies inside it (R32, R44; log 11). -/

namespace Sys2Proof.Machine

/-- A segment: its length in words and its non-zero cells, by rising index (R11, R33). -/
structure Segment where
  length : Nat
  cells  : List (Nat × Word)
deriving DecidableEq, Repr

/-- The memory's state: the map from id to segment by rising id, the free pool with the most recently released id first,
and the next id to mint (R33). -/
structure Memory where
  segs   : List (Nat × Segment)
  free   : List Word
  nextId : Nat
deriving DecidableEq, Repr

/-- The keys of an association list rise strictly: no key is listed twice, and one map has one list. -/
abbrev RisingKeys {α : Type} (l : List (Nat × α)) : Prop :=
  (l.map Prod.fst).Pairwise (· < ·)

/-- The canonical form of a segment: indices rise and lie below the length, no listed cell is 0, and the length is a `Word`
(R21: "a segment's length is at most `2^XLEN - 1`"). -/
abbrev Segment.wf (g : Segment) : Prop :=
  RisingKeys g.cells ∧ (∀ c ∈ g.cells, c.1 < g.length ∧ c.2 ≠ 0#64) ∧ g.length < wordLimit

/-- The canonical form of the memory: ids rise and are `Word`s, and every segment is canonical. -/
abbrev Memory.wf (m : Memory) : Prop :=
  RisingKeys m.segs ∧ ∀ p ∈ m.segs, p.1 < wordLimit ∧ p.2.wf

end Sys2Proof.Machine
end

