-- ==== Sys2Proof/Config.lean ====
section
/-! DEFINITION. What the spec fixes for this hardware (R5) and the one value it leaves open. -/

namespace Sys2Proof

/-- `NREGS`: the number of general registers (R5, D4). -/
abbrev Config.nregs : Nat := 8

/-- One more than the largest LV immediate: the field has 25 bits (R5 `IMMW`, R59). -/
abbrev Config.immLimit : Nat := 2 ^ 25

/-- `NOPS`: the number of defined opcodes (R5). -/
abbrev Config.nops : Nat := 14

/-- `REGS_RESET_ZERO`: the value this hardware takes (R5, R17). `Machine.State.construct` takes it as an argument, so that a
claim about the other value can name it (log 2). -/
abbrev Config.regsResetZero : Bool := false

/-- `BOOT_DEVICE`: the storage device that supplies the boot image, the first attached (R5, D21). -/
abbrev Config.bootDevice : Nat := 0

/-- `SEG_CAPACITY` where nothing at all is known of it: "a predicate on the memory state and the requested length" (R5, D15).
It has no body; the first argument numbers the predicates, so that a claim over every number is a claim over them all
(DESIGN CHOICE, safe: log 8). -/
opaque Config.segCapacity : Nat → Machine.Memory → Nat → Bool

end Sys2Proof
end

