-- ==== Sys2Proof/Syntax.lean ====
section
/-! DEFINITION. The instructions of the WARCH ISA, one constructor per row of spec/opcode_table.json. -/

namespace Sys2Proof

/-- One instruction. Register operands are register NUMBERS, plain naturals: the three-bit fields of a fetched word give
0 to 7 (R55), and the check against the register file's length that R19 and R75 ask for is made when the instruction runs
(log 13). Operands are in the order of the assembly syntax (R69): destination first. -/
inductive Instr where
  /-- Opcode 0 (R83): conditional move. -/
  | cmov (ra rb rc : Nat)
  /-- Opcode 1 (R89): `x[ra]` gets word `x[rc]` of segment `x[rb]`. -/
  | load (ra rb rc : Nat)
  /-- Opcode 2 (R90): word `x[rb]` of segment `x[ra]` gets `x[rc]`. -/
  | store (ra rb rc : Nat)
  /-- Opcode 3 (R84). -/
  | add (ra rb rc : Nat)
  /-- Opcode 4 (R85). -/
  | mul (ra rb rc : Nat)
  /-- Opcode 5 (R86). -/
  | div (ra rb rc : Nat)
  /-- Opcode 6 (R87). -/
  | nand (ra rb rc : Nat)
  /-- Opcode 7 (R93). -/
  | halt
  /-- Opcode 8 (R91): `x[rb]` gets the id of a new segment of `x[rc]` words. -/
  | mapseg (rb rc : Nat)
  /-- Opcode 9 (R92): releases segment `x[rc]`. -/
  | unmapseg (rc : Nat)
  /-- Opcode 10 (R96). -/
  | out (rc : Nat)
  /-- Opcode 11 (R97), mnemonic `in`. -/
  | input (rc : Nat)
  /-- Opcode 12 (R94): load program. -/
  | lp (rb rc : Nat)
  /-- Opcode 13 (R88): load immediate. -/
  | lv (rd imm : Nat)
  /-- The first `invalid` row: a word whose opcode field is 14, with its other 28 bits (R95). Its execution raises
  InvalidOpcode, which records the word, so the bits are kept (log 14). -/
  | invalid14 (rest : Nat)
  /-- The second `invalid` row: a word whose opcode field is 15, with its other 28 bits (R95; log 14). -/
  | invalid15 (rest : Nat)
deriving DecidableEq, Repr

/-- The register numbers an instruction names, read or written, in the order `ra`, `rb`, `rc` of the fields (R16). -/
def Instr.registers : Instr → List Nat
  | .cmov ra rb rc => [ra, rb, rc]
  | .load ra rb rc => [ra, rb, rc]
  | .store ra rb rc => [ra, rb, rc]
  | .add ra rb rc => [ra, rb, rc]
  | .mul ra rb rc => [ra, rb, rc]
  | .div ra rb rc => [ra, rb, rc]
  | .nand ra rb rc => [ra, rb, rc]
  | .halt => []
  | .mapseg rb rc => [rb, rc]
  | .unmapseg rc => [rc]
  | .out rc => [rc]
  | .input rc => [rc]
  | .lp rb rc => [rb, rc]
  | .lv rd _ => [rd]
  | .invalid14 _ => []
  | .invalid15 _ => []

/-- The register an instruction writes when it completes: the "writes" column of the table of R16. -/
def Instr.destination : Instr → Option Nat
  | .cmov ra _ _ => some ra
  | .load ra _ _ => some ra
  | .store _ _ _ => none
  | .add ra _ _ => some ra
  | .mul ra _ _ => some ra
  | .div ra _ _ => some ra
  | .nand ra _ _ => some ra
  | .halt => none
  | .mapseg rb _ => some rb
  | .unmapseg _ => none
  | .out _ => none
  | .input rc => some rc
  | .lp _ _ => none
  | .lv rd _ => some rd
  | .invalid14 _ => none
  | .invalid15 _ => none

/-- The value of the opcode field of an instruction's words (R60). -/
def Instr.opcodeNumber : Instr → Nat
  | .cmov _ _ _ => 0
  | .load _ _ _ => 1
  | .store _ _ _ => 2
  | .add _ _ _ => 3
  | .mul _ _ _ => 4
  | .div _ _ _ => 5
  | .nand _ _ _ => 6
  | .halt => 7
  | .mapseg _ _ => 8
  | .unmapseg _ => 9
  | .out _ => 10
  | .input _ => 11
  | .lp _ _ => 12
  | .lv _ _ => 13
  | .invalid14 _ => 14
  | .invalid15 _ => 15

end Sys2Proof
end

