-- ==== Sys2Proof/WellFormed.lean ====
section
/-! DEFINITION. Which instruction terms have an encoding: every register number fits the register file, the immediate fits
its 25-bit field, and the other bits of an invalid word are 28 bits. -/

namespace Sys2Proof

/-- The operand that is no register number fits its field (R56, R61). -/
def Instr.constantFits : Instr → Bool
  | .lv _ imm => decide (imm < Config.immLimit)
  | .invalid14 rest => decide (rest < 2 ^ 28)
  | .invalid15 rest => decide (rest < 2 ^ 28)
  | .cmov _ _ _ | .load _ _ _ | .store _ _ _ | .add _ _ _ | .mul _ _ _ | .div _ _ _ | .nand _ _ _ => true
  | .halt | .mapseg _ _ | .unmapseg _ | .out _ | .input _ | .lp _ _ => true

/-- The operands of `i` fit the fields of its encoding (R55, R56, R59, R61, R64, R65). -/
def Instr.wellFormed (i : Instr) : Bool :=
  i.registers.all (fun r => decide (r < Config.nregs)) && i.constantFits

end Sys2Proof
end

