-- ==== Sys2Proof/Decode.lean ====
section
/-! DEFINITION. The instruction codec (30_encoding.md): the decoder, total on every 32-bit word, and the encoder. -/

namespace Sys2Proof

/-! ## The decoder -/

/-- The 14 defined opcodes (R60). -/
inductive Opcode where
  | cmov | load | store | add | mul | div | nand | halt | mapseg | unmapseg | out | input | lp | lv
deriving DecidableEq, Repr

/-- What `decode_opcode` answers: a named opcode or the explicit invalid value (R63). -/
inductive OpcodeField where
  | defined (op : Opcode)
  | invalid
deriving DecidableEq, Repr

/-- The opcode numeric table (R60, R61). -/
def opcodeOfNumber : Nat → OpcodeField
  | 0 => .defined .cmov
  | 1 => .defined .load
  | 2 => .defined .store
  | 3 => .defined .add
  | 4 => .defined .mul
  | 5 => .defined .div
  | 6 => .defined .nand
  | 7 => .defined .halt
  | 8 => .defined .mapseg
  | 9 => .defined .unmapseg
  | 10 => .defined .out
  | 11 => .defined .input
  | 12 => .defined .lp
  | 13 => .defined .lv
  | _ => .invalid

/-- The opcode field, bits 31:28, as a number (R54). -/
def opcodeBits (w : InstrWord) : Nat := (w.extractLsb' 28 4).toNat

/-- The 28 bits below the opcode field (R95: "the other 28 bits"). -/
def belowOpcode (w : InstrWord) : Nat := (w.extractLsb' 0 28).toNat

/-- `decode_opcode` (R63). -/
def decodeOpcode (w : InstrWord) : OpcodeField := opcodeOfNumber (opcodeBits w)

/-- `ra = w[8:6]` (R55). -/
def fieldRa (w : InstrWord) : Nat := (w.extractLsb' 6 3).toNat

/-- `rb = w[5:3]` (R55). -/
def fieldRb (w : InstrWord) : Nat := (w.extractLsb' 3 3).toNat

/-- `rc = w[2:0]` (R55). -/
def fieldRc (w : InstrWord) : Nat := (w.extractLsb' 0 3).toNat

/-- `rd = w[27:25]` (R56). -/
def fieldRd (w : InstrWord) : Nat := (w.extractLsb' 25 3).toNat

/-- `imm = w[24:0]` (R56). -/
def fieldImm (w : InstrWord) : Nat := (w.extractLsb' 0 25).toNat

/-- `decode_three_register` (R63). -/
def decodeThreeRegister (w : InstrWord) : Nat × Nat × Nat := (fieldRa w, fieldRb w, fieldRc w)

/-- `decode_immediate` (R63). -/
def decodeImmediate (w : InstrWord) : Nat × Nat := (fieldRd w, fieldImm w)

/-- The operands an opcode takes from a word; bits it does not use are ignored (R16, R58). -/
def Opcode.operands (op : Opcode) (w : InstrWord) : Instr :=
  match op with
  | .cmov => .cmov (fieldRa w) (fieldRb w) (fieldRc w)
  | .load => .load (fieldRa w) (fieldRb w) (fieldRc w)
  | .store => .store (fieldRa w) (fieldRb w) (fieldRc w)
  | .add => .add (fieldRa w) (fieldRb w) (fieldRc w)
  | .mul => .mul (fieldRa w) (fieldRb w) (fieldRc w)
  | .div => .div (fieldRa w) (fieldRb w) (fieldRc w)
  | .nand => .nand (fieldRa w) (fieldRb w) (fieldRc w)
  | .halt => .halt
  | .mapseg => .mapseg (fieldRb w) (fieldRc w)
  | .unmapseg => .unmapseg (fieldRc w)
  | .out => .out (fieldRc w)
  | .input => .input (fieldRc w)
  | .lp => .lp (fieldRb w) (fieldRc w)
  | .lv => .lv (fieldRd w) (fieldImm w)

/-- The decoder: pure, stateless and total. An invalid opcode is data, not a failure (R61, R63); it has the two values 14
and 15, each with a constructor of its own (log 14). -/
def decode (w : InstrWord) : Instr :=
  match decodeOpcode w with
  | .defined op => op.operands w
  | .invalid => if opcodeBits w = 14 then .invalid14 (belowOpcode w) else .invalid15 (belowOpcode w)

/-- Why bytes give no instruction. -/
inductive DecodeError where
  /-- Fewer than four bytes are left (R113: a trailing partial word is no word of the image). -/
  | truncated
deriving DecidableEq, Repr

/-- Four bytes of a boot image as a word, most significant byte first: `B[4k]` is bits 31:24 (R113). -/
def wordOfBytes (b0 b1 b2 b3 : Byte) : InstrWord := b0 ++ b1 ++ b2 ++ b3

/-- The first instruction of the bytes of a boot image, with the bytes that follow it (R113). -/
def decodeBytes : List Byte → Except DecodeError (Instr × List Byte)
  | b0 :: b1 :: b2 :: b3 :: rest => .ok (decode (wordOfBytes b0 b1 b2 b3), rest)
  | _ => .error .truncated

/-! ## The encoder -/

/-- `InvalidOperand`, the encoders' failure (R64, R65). -/
inductive EncodeError where
  | invalidOperand
deriving DecidableEq, Repr

/-- The three-register form with every unused bit 0 (R55, R64). -/
def packThreeRegister (op ra rb rc : Nat) : InstrWord :=
  BitVec.ofNat 4 op ++ 0#19 ++ BitVec.ofNat 3 ra ++ BitVec.ofNat 3 rb ++ BitVec.ofNat 3 rc

/-- The immediate-load form (R56, R65). -/
def packImmediate (op rd imm : Nat) : InstrWord :=
  BitVec.ofNat 4 op ++ BitVec.ofNat 3 rd ++ BitVec.ofNat 25 imm

/-- A word with an invalid opcode and the given other bits (R61). -/
def packInvalid (op rest : Nat) : InstrWord := BitVec.ofNat 4 op ++ BitVec.ofNat 28 rest

/-- `encode_three_register` (R64; C3, D28). -/
def encodeThreeRegister (op ra rb rc : Nat) : Except EncodeError InstrWord :=
  if op < Config.nops ∧ ra < Config.nregs ∧ rb < Config.nregs ∧ rc < Config.nregs then
    .ok (packThreeRegister op ra rb rc)
  else .error .invalidOperand

/-- `encode_immediate` (R65; C3, D28). -/
def encodeImmediate (op rd value : Nat) : Except EncodeError InstrWord :=
  if op < Config.nops ∧ rd < Config.nregs ∧ value < Config.immLimit then .ok (packImmediate op rd value)
  else .error .invalidOperand

/-- The canonical word of an instruction: fields an opcode does not use are 0 (R64, R69). -/
def encode : Instr → InstrWord
  | .cmov ra rb rc => packThreeRegister 0 ra rb rc
  | .load ra rb rc => packThreeRegister 1 ra rb rc
  | .store ra rb rc => packThreeRegister 2 ra rb rc
  | .add ra rb rc => packThreeRegister 3 ra rb rc
  | .mul ra rb rc => packThreeRegister 4 ra rb rc
  | .div ra rb rc => packThreeRegister 5 ra rb rc
  | .nand ra rb rc => packThreeRegister 6 ra rb rc
  | .halt => packThreeRegister 7 0 0 0
  | .mapseg rb rc => packThreeRegister 8 0 rb rc
  | .unmapseg rc => packThreeRegister 9 0 0 rc
  | .out rc => packThreeRegister 10 0 0 rc
  | .input rc => packThreeRegister 11 0 0 rc
  | .lp rb rc => packThreeRegister 12 0 rb rc
  | .lv rd imm => packImmediate 13 rd imm
  | .invalid14 rest => packInvalid 14 rest
  | .invalid15 rest => packInvalid 15 rest

/-- The codec's encoding of an instruction, with its checks: `encode_three_register` or `encode_immediate` of its fields;
an invalid opcode is out of their range (R64, R65). -/
def encodeChecked : Instr → Except EncodeError InstrWord
  | .cmov ra rb rc => encodeThreeRegister 0 ra rb rc
  | .load ra rb rc => encodeThreeRegister 1 ra rb rc
  | .store ra rb rc => encodeThreeRegister 2 ra rb rc
  | .add ra rb rc => encodeThreeRegister 3 ra rb rc
  | .mul ra rb rc => encodeThreeRegister 4 ra rb rc
  | .div ra rb rc => encodeThreeRegister 5 ra rb rc
  | .nand ra rb rc => encodeThreeRegister 6 ra rb rc
  | .halt => encodeThreeRegister 7 0 0 0
  | .mapseg rb rc => encodeThreeRegister 8 0 rb rc
  | .unmapseg rc => encodeThreeRegister 9 0 0 rc
  | .out rc => encodeThreeRegister 10 0 0 rc
  | .input rc => encodeThreeRegister 11 0 0 rc
  | .lp rb rc => encodeThreeRegister 12 0 rb rc
  | .lv rd imm => encodeImmediate 13 rd imm
  | .invalid14 _ => .error .invalidOperand
  | .invalid15 _ => .error .invalidOperand

/-! ## The host's numbering of a table row's bits -/

/-- The low `nbits` bits of `w` as an instruction word: WARCH cells hold whole words, so bit 0 of the table is bit 0 of the
word (R6, R53). -/
def tableWord (nbits w : Nat) : InstrWord := BitVec.ofNat 32 (w % 2 ^ nbits)

/-- The instruction the decoder reads from a table row's word; it refuses none (R63). -/
def decodeTableWord (nbits w : Nat) : Option Instr := some (decode (tableWord nbits w))

end Sys2Proof
end

