-- ==== Sys2Proof/Machine/Assoc.lean ====
section
/-! DEFINITION. The association lists behind the memory: lookup, insertion in key order, removal. The memory's canonical form
rests on them: the segment map is keyed by id, a segment's cells by index (log 11). -/

namespace Sys2Proof.Machine

/-- The entry of key `k`. -/
def assocFind {α : Type} : List (Nat × α) → Nat → Option α
  | [], _ => none
  | (k', v) :: rest, k => if k' = k then some v else assocFind rest k

/-- The list with `v` at key `k`, in key order. -/
def assocSet {α : Type} : List (Nat × α) → Nat → α → List (Nat × α)
  | [], k, v => [(k, v)]
  | (k', v') :: rest, k, v =>
    if k < k' then (k, v) :: (k', v') :: rest
    else if k' = k then (k, v) :: rest
    else (k', v') :: assocSet rest k v

/-- The list without an entry of key `k`. -/
def assocErase {α : Type} : List (Nat × α) → Nat → List (Nat × α)
  | [], _ => []
  | (k', v') :: rest, k => if k' = k then assocErase rest k else (k', v') :: assocErase rest k

end Sys2Proof.Machine
end

