-- ==== Sys2Proof/Machine/State.lean ====
section
/-! DEFINITION. The state of one WARCH core instance as plain data (R29), the reasons a step can stop, and the state right
after reset. -/

namespace Sys2Proof.Machine

/-- A part of the Machine that the self-test looks for, in the order the source lists them (R112). -/
inductive Part where
  | processingUnit
  | gpu
  | memory
  | storage
deriving DecidableEq, Repr

/-- The parts inserted into the Machine, and whether it is configured with a GPU; the storage devices are a field of
`State` of their own (R111, R112). -/
structure Parts where
  processingUnit : Bool
  memory         : Bool
  gpu            : Bool
  gpuConfigured  : Bool
deriving DecidableEq, Repr

/-- `SEG_CAPACITY`, the spec's open parameter, as plain data (R5, R37, D15; log 7). -/
inductive Capacity where
  /-- Always true: the choice D15 names. -/
  | unlimited
  /-- A limit on the total number of words of all live segments (R5 "total words"; log 18). -/
  | totalWords (limit : Nat)
  /-- The `k`-th of the predicates of which nothing is known (log 8). -/
  | predicate (k : Nat)
deriving DecidableEq, Repr

/-- One answer of the input port (R27). -/
inductive InAnswer where
  | byte (b : Byte)
  | eof
deriving DecidableEq, Repr

/-- The run state. `ready`, `running`, `halted` and `faulted` are R23's; `constructed` and `tested` are the two stages of the
reset sequence before `ready` (R111: construction, self-test, boot load; DEDUCED, log 5). -/
inductive RunState where
  /-- Constructed, the self-test not yet run (R111). -/
  | constructed
  /-- The self-test passed, the boot load not yet done (R112, R113). -/
  | tested
  /-- Boot has loaded segment 0 and set `pc = 0`; the run loop has not started (R23). -/
  | ready
  /-- The run loop performs one instruction a step (R71). -/
  | running
  /-- Ended by HALT; terminal (R23, R93). -/
  | halted
  /-- Ended by a fault; terminal (R23, R99). -/
  | faulted
deriving DecidableEq, Repr

/-- The eight fault kinds (R98). -/
inductive FaultKind where
  | invalidOpcode
  | divideByZero
  | outputRange
  | outOfBounds
  | invalidRelease
  | allocFailed
  | unwrittenRegister
  | missingPart
deriving DecidableEq, Repr

/-- What made a memory access (R98 "access kind"; the names: log 24). The copy of LP has no index (R41). -/
inductive Access where
  | fetch
  | load
  | store
  | boot
  | copy
deriving DecidableEq, Repr

/-- Why an address does not exist (R39, R40 `why`). -/
inductive Absence where
  | notLive
  | pastEnd
deriving DecidableEq, Repr

/-- What raised a fault: its kind together with the information the record keeps of it (R24, R98 "info recorded"). -/
inductive FaultCause where
  /-- Code 1: the fetched word's opcode is 14 or 15 (R95). -/
  | invalidOpcode (word : InstrWord)
  /-- Code 2: Div by a zero divisor (R86). -/
  | divideByZero (dividend : Word)
  /-- Code 3: Out of a value above 255 (R96). -/
  | outputRange (value : Word)
  /-- Code 4: an access to a segment that is not live or past a segment's end (R39, R40, R41, R73). -/
  | outOfBounds (seg : Word) (index : Option Word) (why : Absence) (access : Access)
  /-- Code 4: a register number past the register file (R19). -/
  | registerOutOfBounds (register : Nat)
  /-- Code 5: a release of an id that is not live (R38). -/
  | invalidRelease (seg : Word)
  /-- Code 6: an allocation of `size` words that does not fit, or no id left (R37, R41). -/
  | allocFailed (size : Nat)
  /-- Code 7: a read of a register nothing has written since reset (R18). -/
  | unwrittenRegister (register : Nat)
  /-- Code 8: required parts absent at the self-test (R112). -/
  | missingPart (parts : List Part)
deriving DecidableEq, Repr

/-- The fault record `{kind, pc, word, info}` (R24): the cause holds kind and information, `word` is the fetched instruction
word when a fetch succeeded. -/
structure FaultRecord where
  cause : FaultCause
  pc    : Word
  word  : Option InstrWord
deriving DecidableEq, Repr

/-- The complete state of one core instance (R29), with the environment's answers, the parts and the storage blobs it was
launched with (R31) and the capacity parameter (R5). -/
structure State where
  /-- `x[0]` to `x[7]` (R15). A register whose mark in `written` is false holds no value a program can read (R17, R18). -/
  regs     : Vector Word 8
  /-- Which registers have been written since reset (R17, R30). -/
  written  : Vector Bool 8
  /-- The index in segment 0 of the current or next instruction (R20). -/
  pc       : Word
  /-- The run state (R23). -/
  run      : RunState
  /-- The fault record, never cleared (R24). -/
  record   : Option FaultRecord
  /-- The segmented memory with its allocator (R33). -/
  mem      : Memory
  /-- The bytes emitted since reset, oldest first (R26). -/
  output   : List Byte
  /-- The input port's answers still to come, next first (R27; log 9). -/
  input    : List InAnswer
  /-- The parts inserted (R112). -/
  parts    : Parts
  /-- The byte blobs of the storage devices, first attached first (R112, R113). -/
  storage  : List (List Byte)
  /-- `SEG_CAPACITY` (R5). -/
  capacity : Capacity
deriving DecidableEq, Repr

/-- The steps the model stops at. The eight faults of R98 are NOT here: the spec describes the entry into `Faulted` whole
(R99), so taking one is a next state (`State.enterFault`; log 3). -/
inductive Fault where
  /-- Raised by the boot load when there is no storage device `BOOT_DEVICE`: R113 gives no image to load then, and R112's
  self-test has ruled the case out in every state a launch reaches. Safe (log 15). -/
  | noBootDevice
deriving DecidableEq, Repr

/-- An instruction without a meaning. -/
inductive Refusal where
  /-- Raised by an arm of `exec` whose instruction has no meaning yet; no arm is in that case. Safe. -/
  | notModelled (mnemonic : String)
deriving DecidableEq, Repr

/-- The machine right after reset (R29, R114): the boot load has made segment 0 and the run loop has not started. The boot
image comes from outside the machine; here it is the empty one, so segment 0 is live with no word in it, and a program is
placed by `State.withFetchWord` or by launching with an image (`State.construct`; log 6). -/
def State.reset : State where
  regs     := Vector.replicate 8 0#64
  written  := Vector.replicate 8 Config.regsResetZero
  pc       := 0#64
  run      := .ready
  record   := none
  mem      := { segs := [(0, { length := 0, cells := [] })], free := [], nextId := 1 }
  output   := []
  input    := []
  parts    := { processingUnit := true, memory := true, gpu := false, gpuConfigured := false }
  storage  := [[]]
  capacity := .unlimited

end Sys2Proof.Machine
end

