-- ==== Sys2Proof/Machine/Ops.lean ====
section
/-! DEFINITION. The named operations over memory, allocator, registers, ports and run state, and the entry into a fault. Every
operation that can fail answers `Except FaultCause`: a result, or the cause of a fault and no change (R36, R77). -/

namespace Sys2Proof.Machine

/-! ## Faults (60_exceptions.md) -/

/-- The kind of a cause (R98). -/
def FaultCause.kind : FaultCause → FaultKind
  | .invalidOpcode _ => .invalidOpcode
  | .divideByZero _ => .divideByZero
  | .outputRange _ => .outputRange
  | .outOfBounds _ _ _ _ => .outOfBounds
  | .registerOutOfBounds _ => .outOfBounds
  | .invalidRelease _ => .invalidRelease
  | .allocFailed _ => .allocFailed
  | .unwrittenRegister _ => .unwrittenRegister
  | .missingPart _ => .missingPart

/-- The numeric code of a kind (R98, D10). -/
def FaultKind.code : FaultKind → Nat
  | .invalidOpcode => 1
  | .divideByZero => 2
  | .outputRange => 3
  | .outOfBounds => 4
  | .invalidRelease => 5
  | .allocFailed => 6
  | .unwrittenRegister => 7
  | .missingPart => 8

/-! ## Segments and the memory (20_memory.md) -/

/-- A segment of `n` zero cells (R37). -/
def Segment.zeros (n : Nat) : Segment := { length := n, cells := [] }

/-- Cell `i` of a segment; an unlisted cell reads 0 (log 11). The bound is checked by `memRead`. -/
def Segment.get (g : Segment) (i : Nat) : Word := (assocFind g.cells i).getD 0#64

/-- The segment with `v` in cell `i`; writing 0 removes the listed cell, which keeps the canonical form. -/
def Segment.put (g : Segment) (i : Nat) (v : Word) : Segment :=
  { g with cells := if v = 0#64 then assocErase g.cells i else assocSet g.cells i v }

/-- The segment of a live id (R33). -/
def Memory.segment (m : Memory) (s : Word) : Option Segment := assocFind m.segs s.toNat

/-- `live(s)`: `s` is in the domain of `seg` (R34). -/
def Memory.live (m : Memory) (s : Word) : Bool := (m.segment s).isSome

/-- The memory with segment `s` replaced or made. -/
def Memory.setSegment (m : Memory) (s : Word) (g : Segment) : Memory :=
  { m with segs := assocSet m.segs s.toNat g }

/-- The total number of words of all live segments (R5 "total words"). -/
def Memory.totalWords (m : Memory) : Nat := (m.segs.map (fun p => p.2.length)).sum

/-- `SEG_CAPACITY(mem, n)`: whether `n` more words fit (R5, R37; log 7, log 18). -/
def Capacity.admits (c : Capacity) (m : Memory) (n : Nat) : Bool :=
  match c with
  | .unlimited => true
  | .totalWords limit => decide (m.totalWords + n ≤ limit)
  | .predicate k => Config.segCapacity k m n

/-- `MemRead((s, i), 1)` (R39). -/
def memRead (access : Access) (m : Memory) (s i : Word) : Except FaultCause Word :=
  match m.segment s with
  | none => .error (.outOfBounds s (some i) .notLive access)
  | some g =>
    if i.toNat < g.length then .ok (g.get i.toNat)
    else .error (.outOfBounds s (some i) .pastEnd access)

/-- `MemWrite((s, i), 1, v)` (R40). -/
def memWrite (access : Access) (m : Memory) (s i v : Word) : Except FaultCause Memory :=
  match m.segment s with
  | none => .error (.outOfBounds s (some i) .notLive access)
  | some g =>
    if i.toNat < g.length then .ok (m.setSegment s (g.put i.toNat v))
    else .error (.outOfBounds s (some i) .pastEnd access)

/-- `Alloc(n)` (R37): the most recently released id when the pool is not empty, else the next id to mint; the segment is
zero-filled. `n` is a `Word` there; a boot image that has `2^64` words or more does not fit either (log 12). -/
def alloc (c : Capacity) (m : Memory) (n : Nat) : Except FaultCause (Word × Memory) :=
  if n < wordLimit ∧ c.admits m n = true then
    match m.free with
    | s :: rest => .ok (s, { m with free := rest }.setSegment s (Segment.zeros n))
    | [] =>
      if m.nextId < wordLimit then
        .ok (BitVec.ofNat 64 m.nextId,
          { m with nextId := m.nextId + 1 }.setSegment (BitVec.ofNat 64 m.nextId) (Segment.zeros n))
      else .error (.allocFailed n)
  else .error (.allocFailed n)

/-- `Release(s)` (R38): a release of an id that is not live is the checked error. -/
def release (m : Memory) (s : Word) : Except FaultCause Memory :=
  if m.live s then .ok { m with segs := assocErase m.segs s.toNat, free := s :: m.free }
  else .error (.invalidRelease s)

/-- `Duplicate(f, t)` (R41): segment `t` becomes a copy of segment `f`, resized. -/
def duplicate (c : Capacity) (m : Memory) (f t : Word) : Except FaultCause Memory :=
  match m.segment f with
  | none => .error (.outOfBounds f none .notLive .copy)
  | some g =>
    if m.live t then
      if c.admits m g.length then .ok (m.setSegment t g) else .error (.allocFailed g.length)
    else .error (.outOfBounds t none .notLive .copy)

/-! ## Registers and the program counter (10_state.md) -/

/-- The value register `r` holds (R15). -/
def State.reg (s : State) (r : Nat) : Word := s.regs[r]?.getD 0#64

/-- Whether register `r` has been written since reset (R17). -/
def State.isWritten (s : State) (r : Nat) : Bool := s.written[r]?.getD false

/-- `RegWrite(r, v)`: sets register `r` and marks it written (R30). -/
def State.regWrite (s : State) (r : Nat) (v : Word) : State :=
  { s with regs := s.regs.setIfInBounds r v, written := s.written.setIfInBounds r true }

/-- The pc of an instruction that completes and is no jump (R78; log 23). -/
def State.advance (s : State) : State := { s with pc := s.pc + 1#64 }

/-! ## The fetched word, the fault entry, and the end of a meaning -/

/-- The instruction word is the low 32 bits of a cell (R53). -/
def instrWordOf (cell : Word) : InstrWord := cell.extractLsb' 0 32

/-- The fetch of the cell at `(0, pc)` (R73). -/
def State.fetchCell (s : State) : Except FaultCause Word := memRead .fetch s.mem 0#64 s.pc

/-- The word the fetch at `pc` gives, absent when the fetch does not succeed. A fault changes neither memory nor pc (R77),
so this is the word the faulting instruction was fetched from (R24; log 4). -/
def State.fetchedWord (s : State) : Option InstrWord :=
  match s.fetchCell with
  | .ok cell => some (instrWordOf cell)
  | .error _ => none

/-- Fault entry, the core's only trap mechanism (R99): no effect of the instruction, `pc` kept, the record written,
`run <- Faulted`. There is no return from it (R100). For a fault before any fetch (R112, R113) R24 names no pc, and the record takes
the pc register's value (DESIGN CHOICE, log 26). -/
def State.enterFault (s : State) (word : Option InstrWord) (cause : FaultCause) : State :=
  { s with run := .faulted, record := some { cause := cause, pc := s.pc, word := word } }

/-- The end of an instruction begun in state `s`: all its effects, or the fault entry from `s` and none of them (R72, R77). -/
def complete (s : State) (r : Except FaultCause State) : Host.Outcome State Fault Refusal :=
  match r with
  | .ok t => .next t
  | .error cause => .next (s.enterFault s.fetchedWord cause)

/-! ## Ports (10_state.md R26, R27) -/

/-- `OutPort(b)` (R26; log 10). -/
def State.emit (s : State) (b : Byte) : State := { s with output := s.output ++ [b] }

end Sys2Proof.Machine
end

