-- ==== Sys2Proof/Machine/Boot.lean ====
section
/-! DEFINITION. Reset and boot (70_reset_and_hazards.md): construction, the self-test, the boot load of segment 0. The
self-test and the boot load are one step each (log 17). -/

namespace Sys2Proof.Machine

/-- A Machine just constructed with the given parts, storage blobs, input answers and parameters: memory empty (R35), registers
unwritten, or all 0 and written under `REGS_RESET_ZERO` (R17), no output (R111). The pc before the boot load sets it is 0 (DESIGN
CHOICE, log 26). -/
def State.construct (parts : Parts) (storage : List (List Byte)) (input : List InAnswer) (capacity : Capacity)
    (regsResetZero : Bool) : State where
  regs     := Vector.replicate 8 0#64
  written  := Vector.replicate 8 regsResetZero
  pc       := 0#64
  run      := .constructed
  record   := none
  mem      := { segs := [], free := [], nextId := 0 }
  output   := []
  input    := input
  parts    := parts
  storage  := storage
  capacity := capacity

/-- Whether a part is there: a storage device counts when at least one is attached (R112). -/
def State.hasPart (s : State) : Part → Bool
  | .processingUnit => s.parts.processingUnit
  | .gpu => s.parts.gpu
  | .memory => s.parts.memory
  | .storage => !s.storage.isEmpty

/-- Whether the Machine's configuration requires a part: a GPU only when it is configured with one (R112, D22). -/
def State.requiresPart (s : State) : Part → Bool
  | .processingUnit => true
  | .gpu => s.parts.gpuConfigured
  | .memory => true
  | .storage => true

/-- The required parts that are absent, each reported (R112). -/
def State.missingParts (s : State) : List Part :=
  [Part.processingUnit, .gpu, .memory, .storage].filter (fun p => s.requiresPart p && !s.hasPart p)

/-- The self-test (R112): MissingPart names every absent part, and then no boot load happens. No fetch has succeeded, so the record
has no word; the pc it holds is the model's choice, the pc register's value (DESIGN CHOICE, log 26). -/
def selfTest (s : State) : Host.Outcome State Fault Refusal :=
  if s.missingParts = [] then .next { s with run := .tested }
  else .next (s.enterFault none (.missingPart s.missingParts))

/-- The words of a boot image: big-endian, four bytes each, a trailing part of a word ignored (R113, D20). -/
def imageWords : List Byte → List InstrWord
  | b0 :: b1 :: b2 :: b3 :: rest => wordOfBytes b0 b1 b2 b3 :: imageWords rest
  | _ => []

/-- The write of the image's words into segment 0 at index `k` and up, each zero-extended into its cell (R113, D29). -/
def writeWords (m : Memory) (k : Nat) : List InstrWord → Except FaultCause Memory
  | [] => .ok m
  | w :: rest => do
    let m' ← memWrite .boot m 0#64 (BitVec.ofNat 64 k) (w.setWidth 64)
    writeWords m' (k + 1) rest

/-- The memory after the boot load of an image (R113). -/
def loadImage (c : Capacity) (m : Memory) (blob : List Byte) : Except FaultCause Memory := do
  let (_, m') ← alloc c m (imageWords blob).length
  writeWords m' 0 (imageWords blob)

/-- The boot load from storage device `BOOT_DEVICE` (R113; log 16). The pc in the record of its AllocFailed is the model's choice
(DESIGN CHOICE, log 26). -/
def bootLoad (s : State) : Host.Outcome State Fault Refusal :=
  match s.storage[Config.bootDevice]? with
  | none => .fault .noBootDevice
  | some blob =>
    match loadImage s.capacity s.mem blob with
    | .ok m => .next { s with mem := m, pc := 0#64, run := .ready }
    | .error cause => .next (s.enterFault none cause)

/-- The start of the run loop: "Starting the loop moves `run` from `Ready` to `Running`" and does nothing else (R23, R71). -/
def startLoop (s : State) : Host.Outcome State Fault Refusal := .next { s with run := .running }

end Sys2Proof.Machine
end

