-- ==== Sys2Proof/Machine/Flags.lean ====
section
/-! DEFINITION. The WARCH core has NO flags: "no implicit stack/flags register", and no instruction writes one (R22, R79). What
other machines keep in flags is here the two conditions an instruction tests on the spot: a register being zero or not
(CMov, LP, Div) and a value range (Out). -/

namespace Sys2Proof.Machine

/-- The condition of CMov and LP, and the divisor check of Div (R22, R83, R86, R94). -/
def isZero (v : Word) : Bool := v == 0#64

/-- The range check of Out: "fails fatally if reg[rc] > 255" (R96). -/
def exceedsByte (v : Word) : Bool := decide (255 < v.toNat)

end Sys2Proof.Machine
end

