-- ==== Sys2Proof/Machine/Operands.lean ====
section
/-! DEFINITION. The operand forms: a register number with its checks, the LV immediate, and the console's byte. -/

namespace Sys2Proof.Machine

/-- The check of every register field an instruction names, made before a register is read or written (R19, R75; R101 step 3).
Of several numbers past the file the record names the first in the order `ra`, `rb`, `rc`, the destination among them (DESIGN
CHOICE, log 27). -/
def checkRegisters : List Nat → Except FaultCause Unit
  | [] => .ok ()
  | r :: rest => if r < Config.nregs then checkRegisters rest else .error (.registerOutOfBounds r)

/-- `RegRead(r)`: the register's value, or the fault of a read of an unwritten register (R18, R30). -/
def regRead (s : State) (r : Nat) : Except FaultCause Word :=
  if s.isWritten r then .ok (s.reg r) else .error (.unwrittenRegister r)

/-- The LV immediate, `zext_64(w[24:0])` (R59). -/
def immediateWord (imm : Nat) : Word := (BitVec.ofNat 25 imm).setWidth 64

/-- A value of 0 to 255 as the byte Out emits (R96). -/
def byteOf (v : Word) : Byte := v.setWidth 8

/-- What In writes for an answer of the port: the byte zero-extended, or the all-ones sentinel at end of input (R97, D30). -/
def answerWord : InAnswer → Word
  | .byte b => b.setWidth 64
  | .eof => Word.allOnes

end Sys2Proof.Machine
end

