-- ==== Sys2Proof/Machine/Control.lean ====
section
/-! DEFINITION. The control instructions (43_control.md): halt, lp, and the invalid opcodes 14 and 15. -/

namespace Sys2Proof.Machine

/-- HALT (R93): `pc` keeps this instruction's index. -/
def execHalt (s : State) : Host.Outcome State Fault Refusal := .next { s with run := .halted }

/-- The program segment after LP with source id `b`: unchanged for `b = 0`, else a copy of segment `b` (R94). The test is on
the register's value (C5). -/
def loadProgram (s : State) (b : Word) : Except FaultCause Memory :=
  if isZero b then .ok s.mem else duplicate s.capacity s.mem b 0#64

/-- LP (R94): the net effect, a jump to `x[rc]` for every value of it (R78; C2, D16). -/
def execLp (rb rc : Nat) (s : State) : Host.Outcome State Fault Refusal :=
  complete s do
    checkRegisters [rb, rc]
    let b ← regRead s rb
    let t ← regRead s rc
    let m ← loadProgram s b
    return { s with mem := m, pc := t }

/-- A word with an invalid opcode raises InvalidOpcode and records the word (R95, R98). -/
def raiseInvalidOpcode (op rest : Nat) (s : State) : Host.Outcome State Fault Refusal :=
  complete s (.error (.invalidOpcode (BitVec.ofNat 4 op ++ BitVec.ofNat 28 rest)))

/-- A word whose opcode field is 14 (R95). -/
def execInvalid14 (rest : Nat) (s : State) : Host.Outcome State Fault Refusal := raiseInvalidOpcode 14 rest s

/-- A word whose opcode field is 15 (R95). -/
def execInvalid15 (rest : Nat) (s : State) : Host.Outcome State Fault Refusal := raiseInvalidOpcode 15 rest s

end Sys2Proof.Machine
end

