-- ==== Sys2Proof/Machine/Io.lean ====
section
/-! DEFINITION. The console instructions (44_io.md): out, in. -/

namespace Sys2Proof.Machine

/-- Out (R96). -/
def execOut (rc : Nat) (s : State) : Host.Outcome State Fault Refusal :=
  complete s do
    checkRegisters [rc]
    let v ← regRead s rc
    if exceedsByte v then
      .error (.outputRange v)
    else
      return (s.emit (byteOf v)).advance

/-- In after the port's answers `answers` (R97): it takes the next one; with none it completes nothing and waits, its state
unchanged, for as long as the environment does not answer (R97, R109; log 9). -/
def receive (rc : Nat) (s : State) (answers : List InAnswer) : State :=
  match answers with
  | [] => s
  | a :: rest => ({ s with input := rest }.regWrite rc (answerWord a)).advance

/-- In (R97): it reads no register. -/
def execInput (rc : Nat) (s : State) : Host.Outcome State Fault Refusal :=
  complete s do
    checkRegisters [rc]
    return receive rc s s.input

end Sys2Proof.Machine
end

