-- ==== Sys2Proof/Machine/RegisterAlu.lean ====
section
/-! DEFINITION. The register and ALU instructions (41_register_alu.md): cmov, add, mul, div, nand, lv. -/

namespace Sys2Proof.Machine

/-- The ALU's operations (R81). -/
inductive AluOp where
  | add
  | mul
  | div
  | nand
deriving DecidableEq, Repr

/-- The ALU (R81, R82): unsigned arithmetic modulo `2^64`, or the DivideByZero fault. -/
def alu : AluOp → Word → Word → Except FaultCause Word
  | .add, b, c => .ok (b + c)
  | .mul, b, c => .ok (b * c)
  | .div, b, c => if isZero c then .error (.divideByZero b) else .ok (b / c)
  | .nand, b, c => .ok (~~~(b &&& c))

/-- An ALU instruction: `x[ra] <- op(x[rb], x[rc])` (R84 to R87). -/
def aluInstruction (op : AluOp) (ra rb rc : Nat) (s : State) : Host.Outcome State Fault Refusal :=
  complete s do
    checkRegisters [ra, rb, rc]
    let b ← regRead s rb
    let c ← regRead s rc
    let v ← alu op b c
    return (s.regWrite ra v).advance

/-- CMov (R83): `rb` is read only when the condition holds (D6). -/
def execCmov (ra rb rc : Nat) (s : State) : Host.Outcome State Fault Refusal :=
  complete s do
    checkRegisters [ra, rb, rc]
    let c ← regRead s rc
    if isZero c then
      return s.advance
    else
      let b ← regRead s rb
      return (s.regWrite ra b).advance

/-- Add (R84). -/
def execAdd (ra rb rc : Nat) (s : State) : Host.Outcome State Fault Refusal := aluInstruction .add ra rb rc s

/-- Mul (R85). -/
def execMul (ra rb rc : Nat) (s : State) : Host.Outcome State Fault Refusal := aluInstruction .mul ra rb rc s

/-- Div (R86). -/
def execDiv (ra rb rc : Nat) (s : State) : Host.Outcome State Fault Refusal := aluInstruction .div ra rb rc s

/-- NAND (R87). -/
def execNand (ra rb rc : Nat) (s : State) : Host.Outcome State Fault Refusal := aluInstruction .nand ra rb rc s

/-- LV / MovI (R88): it reads no register. -/
def execLv (rd imm : Nat) (s : State) : Host.Outcome State Fault Refusal :=
  complete s do
    checkRegisters [rd]
    return (s.regWrite rd (immediateWord imm)).advance

end Sys2Proof.Machine
end

