-- ==== Sys2Proof/Machine/SegmentMemory.lean ====
section
/-! DEFINITION. The segment memory instructions (42_segment_memory.md): load, store, mapseg, unmapseg. -/

namespace Sys2Proof.Machine

/-- The effective address of Load, `(x[rb], x[rc])`: segment id and word index (R89). -/
def loadAddress (s : State) (rb rc : Nat) : Word × Word := (s.reg rb, s.reg rc)

/-- The effective address of Store, `(x[ra], x[rb])`: segment id and word index (R90). -/
def storeAddress (s : State) (ra rb : Nat) : Word × Word := (s.reg ra, s.reg rb)

/-- Load (R89). -/
def execLoad (ra rb rc : Nat) (s : State) : Host.Outcome State Fault Refusal :=
  complete s do
    checkRegisters [ra, rb, rc]
    let _ ← regRead s rb
    let _ ← regRead s rc
    let v ← memRead .load s.mem (loadAddress s rb rc).1 (loadAddress s rb rc).2
    return (s.regWrite ra v).advance

/-- Store (R90). -/
def execStore (ra rb rc : Nat) (s : State) : Host.Outcome State Fault Refusal :=
  complete s do
    checkRegisters [ra, rb, rc]
    let _ ← regRead s ra
    let _ ← regRead s rb
    let v ← regRead s rc
    let m ← memWrite .store s.mem (storeAddress s ra rb).1 (storeAddress s ra rb).2 v
    return { s with mem := m }.advance

/-- MapSeg (R91): the length is read before the id is written. -/
def execMapseg (rb rc : Nat) (s : State) : Host.Outcome State Fault Refusal :=
  complete s do
    checkRegisters [rb, rc]
    let n ← regRead s rc
    let (id, m) ← alloc s.capacity s.mem n.toNat
    return ({ s with mem := m }.regWrite rb id).advance

/-- UnmapSeg (R92). -/
def execUnmapseg (rc : Nat) (s : State) : Host.Outcome State Fault Refusal :=
  complete s do
    checkRegisters [rc]
    let id ← regRead s rc
    let m ← release s.mem id
    return { s with mem := m }.advance

end Sys2Proof.Machine
end

