-- ==== Sys2Proof/Machine/Dispatch.lean ====
section
/-! DEFINITION. The dispatch: one arm per instruction, each one direct call of its meaning (R74). -/

namespace Sys2Proof.Machine

/-- The execution of one instruction in a state whose pc is that instruction's index (R72, R74). -/
def exec (i : Instr) (s : State) : Host.Outcome State Fault Refusal :=
  match i with
  | .cmov ra rb rc => Sys2Proof.Machine.execCmov ra rb rc s
  | .load ra rb rc => Sys2Proof.Machine.execLoad ra rb rc s
  | .store ra rb rc => Sys2Proof.Machine.execStore ra rb rc s
  | .add ra rb rc => Sys2Proof.Machine.execAdd ra rb rc s
  | .mul ra rb rc => Sys2Proof.Machine.execMul ra rb rc s
  | .div ra rb rc => Sys2Proof.Machine.execDiv ra rb rc s
  | .nand ra rb rc => Sys2Proof.Machine.execNand ra rb rc s
  | .halt => Sys2Proof.Machine.execHalt s
  | .mapseg rb rc => Sys2Proof.Machine.execMapseg rb rc s
  | .unmapseg rc => Sys2Proof.Machine.execUnmapseg rc s
  | .out rc => Sys2Proof.Machine.execOut rc s
  | .input rc => Sys2Proof.Machine.execInput rc s
  | .lp rb rc => Sys2Proof.Machine.execLp rb rc s
  | .lv rd imm => Sys2Proof.Machine.execLv rd imm s
  | .invalid14 rest => Sys2Proof.Machine.execInvalid14 rest s
  | .invalid15 rest => Sys2Proof.Machine.execInvalid15 rest s

end Sys2Proof.Machine
end

