-- ==== Sys2Proof/Machine/Step.lean ====
section
/-! DEFINITION. One step of the machine: the reset sequence, then one instruction a step, then nothing more (R71, R72, R111). -/

namespace Sys2Proof.Machine

/-- One step. While running: fetch, decode, execute (R72). The terminal states stay as they are (R23, R80; log 3). -/
def step (s : State) : Host.Outcome State Fault Refusal :=
  match s.run with
  | .constructed => selfTest s
  | .tested => bootLoad s
  | .ready => startLoop s
  | .running =>
    match s.fetchCell with
    | .error cause => .next (s.enterFault none cause)
    | .ok cell => exec (decode (instrWordOf cell)) s
  | .halted => .next s
  | .faulted => .next s

/-- Segment 0 of `m` with at least the index `i`, the cell there holding `w`. -/
def Memory.placeInProgram (m : Memory) (i : Nat) (w : InstrWord) : Memory :=
  let g := (m.segment 0#64).getD (Segment.zeros 0)
  m.setSegment 0#64 ({ g with length := max g.length (i + 1) }.put i (w.setWidth 64))

/-- `s` with a table row's word placed where the next fetch reads it, and the run loop started: it stands for the load of a
program from outside (log 6, log 20). -/
def State.withFetchWord (s : State) (nbits w : Nat) : State :=
  { s with run := .running, mem := s.mem.placeInProgram s.pc.toNat (tableWord nbits w) }

end Sys2Proof.Machine
end

