-- ==== Sys2Proof/Machine/Assemble.lean ====
section
/-! DEFINITION. The assembly syntax the spec writes its programs in (30_encoding.md R69, D26): lines to words. It is no part of the
hardware (D26); the model has it so that the spec's programs can be read as they stand. What R69 leaves open of the text (blanks,
empty lines, a label on a line of its own) is log 19's. -/

namespace Sys2Proof.Machine

/-- Why a line is no instruction. -/
inductive AsmError where
  | unknownMnemonic
  | badOperands
  | invalidOperand
deriving DecidableEq, Repr

/-- A blank inside a line. -/
def isBlank (c : Char) : Bool := c == ' ' || c == '\t'

/-- Characters without blanks at either end. -/
def trimBlanks (l : List Char) : List Char :=
  ((l.dropWhile isBlank).reverse.dropWhile isBlank).reverse

/-- A line without its comment: "`;` starts a comment" (R69). -/
def stripComment (l : List Char) : List Char := l.takeWhile (· != ';')

/-- The pieces between commas. -/
def splitCommas : List Char → List (List Char)
  | [] => [[]]
  | c :: rest =>
    if c = ',' then [] :: splitCommas rest
    else match splitCommas rest with
      | [] => [[c]]
      | piece :: more => (c :: piece) :: more

/-- A line's label and what follows it; no label when there is no colon (R69). R69 gives only `label:`; which characters a name may
hold is the model's choice: any text before the line's first colon, the blanks at its ends removed, blanks inside and the empty name
included (DESIGN CHOICE, log 19). -/
def splitLabel (l : List Char) : Option (List Char) × List Char :=
  if l.contains ':' then
    (some (trimBlanks (l.takeWhile (· != ':'))), trimBlanks ((l.dropWhile (· != ':')).drop 1))
  else (none, trimBlanks l)

/-- The value of a digit in a base of at most 16. -/
def digitValue (base : Nat) (c : Char) : Option Nat :=
  let n := c.toNat
  let v :=
    if 48 ≤ n ∧ n ≤ 57 then n - 48
    else if 65 ≤ n ∧ n ≤ 70 then n - 55
    else if 97 ≤ n ∧ n ≤ 102 then n - 87
    else 16
  if v < base then some v else none

/-- Digits after a value already read. -/
def digitsFrom (base acc : Nat) : List Char → Option Nat
  | [] => some acc
  | c :: rest =>
    match digitValue base c with
    | some d => digitsFrom base (acc * base + d) rest
    | none => none

/-- A number, decimal or `0x` hexadecimal (R69). -/
def parseNumber : List Char → Option Nat
  | [] => none
  | '0' :: 'x' :: c :: rest => digitsFrom 16 0 (c :: rest)
  | c :: rest => digitsFrom 10 0 (c :: rest)

/-- A register, `r0` to `r7` (R69). -/
def parseRegister : List Char → Option Nat
  | ['r', c] =>
    match digitValue 10 c with
    | some d => if d < Config.nregs then some d else none
    | none => none
  | _ => none

/-- An operand list that is all registers. -/
def parseRegisters : List (List Char) → Option (List Nat)
  | [] => some []
  | o :: rest =>
    match parseRegister o, parseRegisters rest with
    | some r, some rs => some (r :: rs)
    | _, _ => none

/-- The word index a label names (R69); of a label defined twice, the first definition counts (DESIGN CHOICE, log 19). -/
def labelIndex (labels : List (List Char × Nat)) (name : List Char) : Option Nat :=
  (labels.find? (fun p => p.1 == name)).map Prod.snd

/-- An `lv` immediate: a number, or a label that stands for its index (R69); text that reads as a number is one, even where a
label has that name (DESIGN CHOICE, log 19). -/
def parseImmediate (labels : List (List Char × Nat)) (o : List Char) : Option Nat :=
  match parseNumber o with
  | some n => some n
  | none => labelIndex labels o

/-- The codec's word of an instruction, or the assembler's error (R64, R65). -/
def encodeOrError (i : Instr) : Except AsmError InstrWord :=
  match encodeChecked i with
  | .ok w => .ok w
  | .error _ => .error .invalidOperand

/-- A three-operand form. -/
def threeRegisters (make : Nat → Nat → Nat → Instr) (operands : List (List Char)) : Except AsmError InstrWord :=
  match parseRegisters operands with
  | some [ra, rb, rc] => encodeOrError (make ra rb rc)
  | _ => .error .badOperands

/-- A two-operand form. -/
def twoRegisters (make : Nat → Nat → Instr) (operands : List (List Char)) : Except AsmError InstrWord :=
  match parseRegisters operands with
  | some [rb, rc] => encodeOrError (make rb rc)
  | _ => .error .badOperands

/-- A one-operand form. -/
def oneRegister (make : Nat → Instr) (operands : List (List Char)) : Except AsmError InstrWord :=
  match parseRegisters operands with
  | some [rc] => encodeOrError (make rc)
  | _ => .error .badOperands

/-- `lv rd, imm` and its alias `movi`. -/
def loadImmediate (labels : List (List Char × Nat)) (operands : List (List Char)) : Except AsmError InstrWord :=
  match operands with
  | [d, o] =>
    match parseRegister d, parseImmediate labels o with
    | some rd, some imm => encodeOrError (.lv rd imm)
    | _, _ => .error .badOperands
  | _ => .error .badOperands

/-- `.word v`: the 32-bit word `v` as data (R69); `v` is written as an immediate's number is (DESIGN CHOICE, log 19). -/
def dataWord (operands : List (List Char)) : Except AsmError InstrWord :=
  match operands with
  | [o] =>
    match parseNumber o with
    | some v => if v < 2 ^ 32 then .ok (BitVec.ofNat 32 v) else .error .invalidOperand
    | none => .error .badOperands
  | _ => .error .badOperands

/-- The word of a mnemonic with its operands: the table of R69. -/
def assembleForm (labels : List (List Char × Nat)) (mnemonic : String) (operands : List (List Char)) :
    Except AsmError InstrWord :=
  match mnemonic with
  | "cmov" => threeRegisters .cmov operands
  | "load" => threeRegisters .load operands
  | "store" => threeRegisters .store operands
  | "add" => threeRegisters .add operands
  | "mul" => threeRegisters .mul operands
  | "div" => threeRegisters .div operands
  | "nand" => threeRegisters .nand operands
  | "halt" => if operands = [] then encodeOrError .halt else .error .badOperands
  | "mapseg" => twoRegisters .mapseg operands
  | "unmapseg" => oneRegister .unmapseg operands
  | "out" => oneRegister .out operands
  | "in" => oneRegister .input operands
  | "lp" => twoRegisters .lp operands
  | "lv" => loadImmediate labels operands
  | "movi" => loadImmediate labels operands
  | ".word" => dataWord operands
  | _ => .error .unknownMnemonic

/-- The operands of a statement, after its mnemonic. -/
def operandPieces (l : List Char) : List (List Char) :=
  if trimBlanks l = [] then [] else (splitCommas l).map trimBlanks

/-- The word of a statement without label and comment. -/
def assembleStatement (labels : List (List Char × Nat)) (l : List Char) : Except AsmError InstrWord :=
  assembleForm labels (String.ofList (l.takeWhile (fun c => !isBlank c)))
    (operandPieces (l.dropWhile (fun c => !isBlank c)))

/-- The word of one line of text without a label. -/
def assembleLine (text : String) : Except AsmError InstrWord :=
  assembleStatement [] (trimBlanks (stripComment text.toList))

/-- The labels of lines, each with the word index of the next instruction; `index` is that of the first line (R69). A label after the
last word names the index past it (DESIGN CHOICE, log 19). -/
def collectLabels (index : Nat) : List String → List (List Char × Nat)
  | [] => []
  | text :: rest =>
    let parts := splitLabel (stripComment text.toList)
    let more := collectLabels (if parts.2 = [] then index else index + 1) rest
    match parts.1 with
    | some name => (name, index) :: more
    | none => more

/-- The words of lines, the labels known. -/
def assembleLines (labels : List (List Char × Nat)) : List String → Except AsmError (List InstrWord)
  | [] => .ok []
  | text :: rest => do
    let statement := (splitLabel (stripComment text.toList)).2
    if statement = [] then assembleLines labels rest
    else
      let w ← assembleStatement labels statement
      let more ← assembleLines labels rest
      return w :: more

/-- A program's words: two passes, the first for the labels (R69). -/
def assemble (lines : List String) : Except AsmError (List InstrWord) :=
  assembleLines (collectLabels 0 lines) lines

/-- A word's bytes in a boot image, most significant byte first (R113). -/
def imageBytesOf (w : InstrWord) : List Byte :=
  [w.extractLsb' 24 8, w.extractLsb' 16 8, w.extractLsb' 8 8, w.extractLsb' 0 8]

/-- The boot image of a program's words (R44, R113). -/
def imageBytes (words : List InstrWord) : List Byte := words.flatMap imageBytesOf

end Sys2Proof.Machine
end

