-- ==== Sys2Proof/Machine/Disassemble.lean ====
section
/-! DEFINITION. The codec's disassembler (30_encoding.md R67, R68), total on every word. It is an offline function of the codec,
no facility of a running core (R108). The text is the spec's own (D27; log 19). -/

namespace Sys2Proof.Machine

/-- A register's assembly name (R15, R69). -/
def registerName (r : Nat) : String := "r" ++ Nat.repr r

/-- Operands separated by commas (R69). -/
def operandText : List String → String
  | [] => ""
  | [a] => a
  | a :: b :: rest => a ++ ", " ++ operandText (b :: rest)

/-- A mnemonic with register operands (R69). -/
def registerForm (mnemonic : String) (registers : List Nat) : String :=
  mnemonic ++ " " ++ operandText (registers.map registerName)

/-- One upper-case hexadecimal digit. -/
def hexDigit (n : Nat) : Char :=
  if n < 10 then Char.ofNat (48 + n) else Char.ofNat (55 + n)

/-- A word in eight upper-case hexadecimal digits (R67). -/
def hexWord (w : InstrWord) : String :=
  String.ofList ([28, 24, 20, 16, 12, 8, 4, 0].map (fun lo => hexDigit (w.extractLsb' lo 4).toNat))

/-- The junk marker of a word with an invalid opcode (R61, R67). -/
def junkText (w : InstrWord) : String := "junk 0x" ++ hexWord w

/-- The text of an instruction decoded from `w`: the fields its opcode uses, and the junk marker for an invalid opcode (R67). -/
def instrText (w : InstrWord) : Instr → String
  | .cmov ra rb rc => registerForm "cmov" [ra, rb, rc]
  | .load ra rb rc => registerForm "load" [ra, rb, rc]
  | .store ra rb rc => registerForm "store" [ra, rb, rc]
  | .add ra rb rc => registerForm "add" [ra, rb, rc]
  | .mul ra rb rc => registerForm "mul" [ra, rb, rc]
  | .div ra rb rc => registerForm "div" [ra, rb, rc]
  | .nand ra rb rc => registerForm "nand" [ra, rb, rc]
  | .halt => "halt"
  | .mapseg rb rc => registerForm "mapseg" [rb, rc]
  | .unmapseg rc => registerForm "unmapseg" [rc]
  | .out rc => registerForm "out" [rc]
  | .input rc => registerForm "in" [rc]
  | .lp rb rc => registerForm "lp" [rb, rc]
  | .lv rd imm => "lv " ++ operandText [registerName rd, Nat.repr imm]
  | .invalid14 _ => junkText w
  | .invalid15 _ => junkText w

/-- `disassemble(w)` (R67). -/
def disassemble (w : InstrWord) : String := instrText w (decode w)

/-- One line of a listing, `<index in decimal>: <disassemble(w)>` (R68). -/
def listingLine (index : Nat) (w : InstrWord) : String := Nat.repr index ++ ": " ++ disassemble w

/-- The lines of the words from index `index` on. -/
def listingFrom (index : Nat) : List InstrWord → List String
  | [] => []
  | w :: rest => listingLine index w :: listingFrom (index + 1) rest

/-- The listing of an image's words: one line a word, in order, from index 0 (R68). -/
def listing (words : List InstrWord) : List String := listingFrom 0 words

end Sys2Proof.Machine
end

