-- ==== Sys2Proof/Safety.lean ====
section
/-! DEFINITION. The terms claims are written in: what a safe run is, the machine's invariant, and short names for conditions on
states and outcomes. -/

namespace Sys2Proof.Machine

/-- A run is safe as long as the machine has not faulted: "any claim about a program's result must take 'the run did not
fault' as a premise" (R80). -/
def State.safe (s : State) : Prop := s.run ≠ .faulted

/-- Register `r` exists and has been written: an instruction can read it (R18, R19). -/
abbrev State.readable (s : State) (r : Nat) : Prop := r < Config.nregs ∧ s.isWritten r = true

/-- The registers an instruction reads, in the order it reads them (R16, R101 step 4); CMov reads `rb` only when its condition
holds (D6). -/
def registersRead (i : Instr) (s : State) : List Nat :=
  match i with
  | .cmov _ rb rc => if s.reg rc = 0#64 then [rc] else [rc, rb]
  | .load _ rb rc => [rb, rc]
  | .store ra rb rc => [ra, rb, rc]
  | .add _ rb rc => [rb, rc]
  | .mul _ rb rc => [rb, rc]
  | .div _ rb rc => [rb, rc]
  | .nand _ rb rc => [rb, rc]
  | .halt => []
  | .mapseg _ rc => [rc]
  | .unmapseg rc => [rc]
  | .out rc => [rc]
  | .input _ => []
  | .lp rb rc => [rb, rc]
  | .lv _ _ => []
  | .invalid14 _ => []
  | .invalid15 _ => []

/-- The outcome of an instruction that raises a fault in state `s`: everything as it was but the run state and the record (R77,
R99), the record naming the cause, the pc and the fetched word (R24). -/
def faultTaken (s : State) (cause : FaultCause) : Host.Outcome State Fault Refusal :=
  .next { s with run := .faulted, record := some { cause := cause, pc := s.pc, word := s.fetchedWord } }

/-- The field `w[hi:lo]` read as an unsigned number (R6). -/
def fieldAt (w : InstrWord) (hi lo : Nat) : Nat := w.toNat / 2 ^ lo % 2 ^ (hi + 1 - lo)

/-- `s` after an instruction that completes with `x[r] <- v` and `pc <- pc + 1` and changes nothing else: register `r` holds `v`
and is marked written (R30, R78). -/
def State.afterWriting (s : State) (r : Nat) (v : Word) : State :=
  { s with regs := s.regs.setIfInBounds r v, written := s.written.setIfInBounds r true, pc := s.pc + 1#64 }

/-- `len(seg[id])`, absent for an id that is not live (R33). -/
def Memory.lengthOf (m : Memory) (id : Word) : Option Nat := (m.segment id).map Segment.length

/-- Segment `id` reads the same in both memories: every index gives the same word or the same fault (R39). -/
def SameSegment (m m' : Memory) (id : Word) : Prop := ∀ (a : Access) (i : Word), memRead a m' id i = memRead a m id i

/-- The allocator's invariant (R34): live iff minted and not in the pool; the pool holds minted ids, none twice; `next_id` is at
most `2^XLEN` (R33). -/
structure Memory.allocatorInv (m : Memory) : Prop where
  live_iff    : ∀ id : Word, m.live id = true ↔ id.toNat < m.nextId ∧ id ∉ m.free
  free_minted : ∀ id ∈ m.free, id.toNat < m.nextId
  free_nodup  : m.free.Nodup
  nextId_le   : m.nextId ≤ wordLimit

/-- The memory at construction (R35). -/
def Memory.constructed : Memory := { segs := [], free := [], nextId := 0 }

/-- The machine's invariant: the memory is canonical, the allocator's invariant holds, there is a fault record exactly in
`Faulted` (R24), before the boot load the memory is as constructed (R35, R111), once the self-test has passed no required part
is missing (R112), and once boot is done id 0 has been minted (R35, R113). -/
structure State.Inv (s : State) : Prop where
  memory_canonical : s.mem.wf
  allocator        : s.mem.allocatorInv
  record_iff       : s.record.isSome = true ↔ s.run = .faulted
  before_boot      : s.run = .constructed ∨ s.run = .tested → s.mem = Memory.constructed
  parts_present    : s.run = .tested → s.missingParts = []
  program_minted   : s.run = .ready ∨ s.run = .running ∨ s.run = .halted → 1 ≤ s.mem.nextId

/-- The moves of the run state in one step (R23, R71, R111): the reset sequence, the self-loop of Running, its two ends, and
the terminal states. -/
def RunState.mayBecome : RunState → RunState → Bool
  | .constructed, r => r == .tested || r == .faulted
  | .tested, r => r == .ready || r == .faulted
  | .ready, r => r == .running
  | .running, r => r == .running || r == .halted || r == .faulted
  | .halted, r => r == .halted
  | .faulted, r => r == .faulted

end Sys2Proof.Machine
end

