-- ==== Sys2Proof/Certificates/Slice0/Obligations.lean ====
section
/-! DEFINITION. The statements for the provers, taken from the spec's numbered rules. Each docstring names the rule. -/

open Sys2Proof Sys2Proof.Machine

/-! ## Reset and boot -/

/-- R29, R114, with the empty boot image of log 6 (the model's choice): what State.reset holds. -/
def Obligations.ResetHoldsTheSpecsValues : Prop :=
  (∀ r, r < 8 → State.reset.isWritten r = false) ∧ State.reset.pc = 0#64 ∧ State.reset.run = .ready ∧
  State.reset.record = none ∧ State.reset.output = [] ∧
  (∀ id : Word, State.reset.mem.live id = true ↔ id = 0#64) ∧ State.reset.mem.lengthOf 0#64 = some 0 ∧
  State.reset.mem.free = [] ∧ State.reset.mem.nextId = 1

/-- R112: the self-test names every required part that is absent, or passes and does nothing else. The pc in the record is the
model's choice (log 26). -/
def Obligations.SelfTestReportsEveryMissingPart : Prop :=
  ∀ s : State, s.run = .constructed →
    (s.parts.processingUnit = true ∧ s.parts.memory = true ∧ s.storage ≠ [] ∧
        (s.parts.gpuConfigured = true → s.parts.gpu = true) →
      step s = .next { s with run := .tested }) ∧
    (¬ (s.parts.processingUnit = true ∧ s.parts.memory = true ∧ s.storage ≠ [] ∧
        (s.parts.gpuConfigured = true → s.parts.gpu = true)) →
      ∃ ps : List Part,
        step s = .next { s with run := .faulted, record := some { cause := .missingPart ps, pc := s.pc, word := none } } ∧
        (.processingUnit ∈ ps ↔ s.parts.processingUnit = false) ∧ (.memory ∈ ps ↔ s.parts.memory = false) ∧
        (.storage ∈ ps ↔ s.storage = []) ∧
        (.gpu ∈ ps ↔ s.parts.gpuConfigured = true ∧ s.parts.gpu = false))

/-- R113: an image's words are its bytes four at a time, most significant first, and a trailing part of a word is ignored. -/
def Obligations.BootImageIsBigEndianWords : Prop :=
  ∀ blob : List Byte, (imageWords blob).length = blob.length / 4 ∧
    ∀ (k : Nat) (b0 b1 b2 b3 : Byte), blob[4 * k]? = some b0 → blob[4 * k + 1]? = some b1 →
      blob[4 * k + 2]? = some b2 → blob[4 * k + 3]? = some b3 →
      (imageWords blob)[k]? =
        some (BitVec.ofNat 32 (b0.toNat * 2 ^ 24 + b1.toNat * 2 ^ 16 + b2.toNat * 2 ^ 8 + b3.toNat))

/-- R114, by the steps of R111, R112, R113 and R71: from construction with every required part, whatever the boot image that
fits, three steps reach the state the first instruction sees. -/
def Obligations.ResetSequenceReachesTheFirstInstruction : Prop :=
  ∀ (parts : Parts) (blob : List Byte) (more : List (List Byte)) (input : List InAnswer) (capacity : Capacity) (z : Bool),
    parts.processingUnit = true → parts.memory = true → (parts.gpuConfigured = true → parts.gpu = true) →
    blob.length / 4 < 2 ^ 64 → capacity.admits Memory.constructed (blob.length / 4) = true →
    ∃ t : State,
      Host.Core.run core 3 (State.construct parts (blob :: more) input capacity z) = .next t ∧
      (∀ r, r < 8 → t.isWritten r = z ∧ (z = true → t.reg r = 0#64)) ∧ t.pc = 0#64 ∧ t.run = .running ∧ t.record = none ∧
      (∀ id : Word, t.mem.live id = true ↔ id = 0#64) ∧ t.mem.lengthOf 0#64 = some (blob.length / 4) ∧
      (∀ (a : Access) (k : Nat) (w : InstrWord), (imageWords blob)[k]? = some w →
        memRead a t.mem 0#64 (BitVec.ofNat 64 k) = .ok (BitVec.ofNat 64 w.toNat)) ∧
      t.mem.free = [] ∧ t.mem.nextId = 1 ∧ t.output = [] ∧ t.input = input ∧ t.parts = parts ∧
      t.storage = blob :: more ∧ t.capacity = capacity

/-- R113, R37, R98: a boot image that does not fit raises AllocFailed, and no program is loaded. The pc in the record is the model's
choice (log 26). -/
def Obligations.BootImageThatDoesNotFitFaults : Prop :=
  ∀ (s : State) (blob : List Byte) (more : List (List Byte)), s.run = .tested → s.storage = blob :: more →
    s.mem = Memory.constructed → s.capacity.admits s.mem (blob.length / 4) = false →
    step s = .next { s with run := .faulted, record := some { cause := .allocFailed (blob.length / 4), pc := s.pc, word := none } }

/-- R71, R23: the run loop's start moves the run state from Ready to Running with no other effect. -/
def Obligations.LoopStartOnlyMovesTheRunState : Prop :=
  ∀ s : State, s.run = .ready → step s = .next { s with run := .running }

/-! ## The step -/

/-- R72, R53: while running, a step executes the instruction decoded from bits 31:0 of the cell at `(0, pc)`; bits 63:32 make no
difference; and so a step runs exactly a well-formed instruction whose word stands there. -/
def Obligations.StepExecutesTheFetchedInstruction : Prop :=
  (∀ (s : State) (cell : Word), s.run = .running → memRead .fetch s.mem 0#64 s.pc = .ok cell →
    step s = exec (decode (BitVec.ofNat 32 cell.toNat)) s) ∧
  (∀ (s : State) (cell : Word) (i : Instr), s.run = .running → memRead .fetch s.mem 0#64 s.pc = .ok cell →
    decode (BitVec.ofNat 32 cell.toNat) = i → i.wellFormed = true → step s = exec i s)

/-- R73: a fetch past the end of segment 0, or from a segment 0 that is not live, faults OutOfBounds; no word was fetched. -/
def Obligations.FetchOutsideTheProgramFaults : Prop :=
  ∀ s : State, s.run = .running →
    (s.mem.live 0#64 = false →
      step s = .next { s with
        run := .faulted
        record := some { cause := .outOfBounds 0#64 (some s.pc) .notLive .fetch, pc := s.pc, word := none } }) ∧
    (∀ n, s.mem.lengthOf 0#64 = some n → n ≤ s.pc.toNat →
      step s = .next { s with
        run := .faulted
        record := some { cause := .outOfBounds 0#64 (some s.pc) .pastEnd .fetch, pc := s.pc, word := none } })

/-- R23, R80: no step leaves the terminal states. -/
def Obligations.TerminalStatesStay : Prop :=
  ∀ s : State, s.run = .halted ∨ s.run = .faulted → step s = .next s

/-- R23, R71, R111: the run state moves only along the state machine. -/
def Obligations.RunStateFollowsTheStateMachine : Prop :=
  ∀ s t : State, step s = .next t → s.run.mayBecome t.run = true

/-- R71, R93: the loop "only stops on HALT or fatal error": a running machine reaches Halted only by a word whose opcode is 7. -/
def Obligations.OnlyHaltHalts : Prop :=
  ∀ s t : State, s.run = .running → step s = .next t → t.run = .halted →
    ∃ w : InstrWord, s.fetchedWord = some w ∧ fieldAt w 31 28 = 7 ∧ t = { s with run := .halted }

/-- From every state of the invariant a step answers a next state, and every instruction does in every state. The statement is about
the MODEL's form of an outcome: a fault's entry (R99) is a next state by log 3, and an In that waits, where the spec says no step
completes (R97, R109), is a step to the same state by the choice of log 9. -/
def Obligations.StepAlwaysAnswersANextState : Prop :=
  (∀ s : State, s.Inv → ∃ t, step s = .next t) ∧ ∀ (i : Instr) (s : State), ∃ t, exec i s = .next t

/-! ## Register and ALU instructions -/

/-- R83. -/
def Obligations.CmovMovesWhenTheConditionHolds : Prop :=
  (∀ w : InstrWord, fieldAt w 31 28 = 0 → decode w = .cmov (fieldAt w 8 6) (fieldAt w 5 3) (fieldAt w 2 0)) ∧
  ∀ (s : State) (ra rb rc : Nat), ra < 8 → rb < 8 → rc < 8 →
    (s.isWritten rc = true → s.reg rc ≠ 0#64 → s.isWritten rb = true →
      exec (.cmov ra rb rc) s = .next (s.afterWriting ra (s.reg rb))) ∧
    (s.isWritten rc = true → s.reg rc = 0#64 → exec (.cmov ra rb rc) s = .next { s with pc := s.pc + 1#64 }) ∧
    (s.isWritten rc = false → exec (.cmov ra rb rc) s = faultTaken s (.unwrittenRegister rc)) ∧
    (s.isWritten rc = true → s.reg rc ≠ 0#64 → s.isWritten rb = false →
      exec (.cmov ra rb rc) s = faultTaken s (.unwrittenRegister rb))

/-- R84. -/
def Obligations.AddWritesTheSumModuloTheWord : Prop :=
  (∀ w : InstrWord, fieldAt w 31 28 = 3 → decode w = .add (fieldAt w 8 6) (fieldAt w 5 3) (fieldAt w 2 0)) ∧
  ∀ (s : State) (ra rb rc : Nat), ra < 8 → rb < 8 → rc < 8 →
    (s.isWritten rb = true → s.isWritten rc = true →
      exec (.add ra rb rc) s =
        .next (s.afterWriting ra (BitVec.ofNat 64 (((s.reg rb).toNat + (s.reg rc).toNat) % 2 ^ 64)))) ∧
    (s.isWritten rb = false → exec (.add ra rb rc) s = faultTaken s (.unwrittenRegister rb)) ∧
    (s.isWritten rb = true → s.isWritten rc = false → exec (.add ra rb rc) s = faultTaken s (.unwrittenRegister rc))

/-- R85. -/
def Obligations.MulWritesTheProductModuloTheWord : Prop :=
  (∀ w : InstrWord, fieldAt w 31 28 = 4 → decode w = .mul (fieldAt w 8 6) (fieldAt w 5 3) (fieldAt w 2 0)) ∧
  ∀ (s : State) (ra rb rc : Nat), ra < 8 → rb < 8 → rc < 8 →
    (s.isWritten rb = true → s.isWritten rc = true →
      exec (.mul ra rb rc) s =
        .next (s.afterWriting ra (BitVec.ofNat 64 (((s.reg rb).toNat * (s.reg rc).toNat) % 2 ^ 64)))) ∧
    (s.isWritten rb = false → exec (.mul ra rb rc) s = faultTaken s (.unwrittenRegister rb)) ∧
    (s.isWritten rb = true → s.isWritten rc = false → exec (.mul ra rb rc) s = faultTaken s (.unwrittenRegister rc))

/-- R86: unsigned floor division; a zero divisor is a fault whatever the dividend. -/
def Obligations.DivWritesTheUnsignedQuotient : Prop :=
  (∀ w : InstrWord, fieldAt w 31 28 = 5 → decode w = .div (fieldAt w 8 6) (fieldAt w 5 3) (fieldAt w 2 0)) ∧
  ∀ (s : State) (ra rb rc : Nat), ra < 8 → rb < 8 → rc < 8 →
    (s.isWritten rb = true → s.isWritten rc = true → (s.reg rc).toNat ≠ 0 →
      exec (.div ra rb rc) s =
        .next (s.afterWriting ra (BitVec.ofNat 64 ((s.reg rb).toNat / (s.reg rc).toNat)))) ∧
    (s.isWritten rb = true → s.isWritten rc = true → (s.reg rc).toNat = 0 →
      exec (.div ra rb rc) s = faultTaken s (.divideByZero (s.reg rb))) ∧
    (s.isWritten rb = false → exec (.div ra rb rc) s = faultTaken s (.unwrittenRegister rb)) ∧
    (s.isWritten rb = true → s.isWritten rc = false → exec (.div ra rb rc) s = faultTaken s (.unwrittenRegister rc))

/-- R87: the complement is over all 64 bits. -/
def Obligations.NandWritesTheComplementOfTheConjunction : Prop :=
  (∀ w : InstrWord, fieldAt w 31 28 = 6 → decode w = .nand (fieldAt w 8 6) (fieldAt w 5 3) (fieldAt w 2 0)) ∧
  ∀ (s : State) (ra rb rc : Nat), ra < 8 → rb < 8 → rc < 8 →
    (s.isWritten rb = true → s.isWritten rc = true →
      exec (.nand ra rb rc) s =
        .next (s.afterWriting ra (BitVec.ofNat 64 (2 ^ 64 - 1 - ((s.reg rb).toNat &&& (s.reg rc).toNat))))) ∧
    (s.isWritten rb = false → exec (.nand ra rb rc) s = faultTaken s (.unwrittenRegister rb)) ∧
    (s.isWritten rb = true → s.isWritten rc = false → exec (.nand ra rb rc) s = faultTaken s (.unwrittenRegister rc))

/-- R88, R59: the 25-bit immediate, zero-extended; LV reads no register and has no fault. -/
def Obligations.LvWritesTheZeroExtendedImmediate : Prop :=
  (∀ w : InstrWord, fieldAt w 31 28 = 13 → decode w = .lv (fieldAt w 27 25) (fieldAt w 24 0)) ∧
  ∀ (s : State) (rd imm : Nat), rd < 8 → imm < 2 ^ 25 →
    exec (.lv rd imm) s = .next (s.afterWriting rd (BitVec.ofNat 64 imm))

/-! ## Segment memory instructions -/

/-- R89. -/
def Obligations.LoadReadsTheAddressedWord : Prop :=
  (∀ w : InstrWord, fieldAt w 31 28 = 1 → decode w = .load (fieldAt w 8 6) (fieldAt w 5 3) (fieldAt w 2 0)) ∧
  ∀ (s : State) (ra rb rc : Nat), ra < 8 → rb < 8 → rc < 8 →
    (s.isWritten rb = true → s.isWritten rc = true →
      (∀ g, s.mem.segment (s.reg rb) = some g → (s.reg rc).toNat < g.length →
        exec (.load ra rb rc) s = .next (s.afterWriting ra (g.get (s.reg rc).toNat))) ∧
      (∀ g, s.mem.segment (s.reg rb) = some g → g.length ≤ (s.reg rc).toNat →
        exec (.load ra rb rc) s = faultTaken s (.outOfBounds (s.reg rb) (some (s.reg rc)) .pastEnd .load)) ∧
      (s.mem.live (s.reg rb) = false →
        exec (.load ra rb rc) s = faultTaken s (.outOfBounds (s.reg rb) (some (s.reg rc)) .notLive .load))) ∧
    (s.isWritten rb = false → exec (.load ra rb rc) s = faultTaken s (.unwrittenRegister rb)) ∧
    (s.isWritten rb = true → s.isWritten rc = false → exec (.load ra rb rc) s = faultTaken s (.unwrittenRegister rc))

/-- R90: the value lands at index `x[rb]` of segment `x[ra]`, every other address reads as before, and no length, pool or next id
changes. -/
def Obligations.StoreWritesTheAddressedWord : Prop :=
  (∀ w : InstrWord, fieldAt w 31 28 = 2 → decode w = .store (fieldAt w 8 6) (fieldAt w 5 3) (fieldAt w 2 0)) ∧
  ∀ (s : State) (ra rb rc : Nat), ra < 8 → rb < 8 → rc < 8 →
    (s.isWritten ra = true → s.isWritten rb = true → s.isWritten rc = true →
      (∀ n, s.mem.lengthOf (s.reg ra) = some n → (s.reg rb).toNat < n →
        ∃ m : Memory, exec (.store ra rb rc) s = .next { s with mem := m, pc := s.pc + 1#64 } ∧
          (∀ a, memRead a m (s.reg ra) (s.reg rb) = .ok (s.reg rc)) ∧
          (∀ (a : Access) (id i : Word), (id, i) ≠ (s.reg ra, s.reg rb) → memRead a m id i = memRead a s.mem id i) ∧
          (∀ id, m.lengthOf id = s.mem.lengthOf id) ∧ m.free = s.mem.free ∧ m.nextId = s.mem.nextId) ∧
      (∀ n, s.mem.lengthOf (s.reg ra) = some n → n ≤ (s.reg rb).toNat →
        exec (.store ra rb rc) s = faultTaken s (.outOfBounds (s.reg ra) (some (s.reg rb)) .pastEnd .store)) ∧
      (s.mem.live (s.reg ra) = false →
        exec (.store ra rb rc) s = faultTaken s (.outOfBounds (s.reg ra) (some (s.reg rb)) .notLive .store))) ∧
    (s.isWritten ra = false → exec (.store ra rb rc) s = faultTaken s (.unwrittenRegister ra)) ∧
    (s.isWritten ra = true → s.isWritten rb = false → exec (.store ra rb rc) s = faultTaken s (.unwrittenRegister rb)) ∧
    (s.isWritten ra = true → s.isWritten rb = true → s.isWritten rc = false →
      exec (.store ra rb rc) s = faultTaken s (.unwrittenRegister rc))

/-- R91, R37: the id is the most recently released one, else the next to mint; the new segment is all zeros; nothing else of the
memory changes; `x[rb]` gets the id, which is not 0 while segment 0 is live (as it is whenever a MapSeg has been fetched). -/
def Obligations.MapsegAllocatesAZeroedSegment : Prop :=
  (∀ w : InstrWord, fieldAt w 31 28 = 8 → decode w = .mapseg (fieldAt w 5 3) (fieldAt w 2 0)) ∧
  ∀ (s : State) (rb rc : Nat), rb < 8 → rc < 8 →
    (s.isWritten rc = true → s.capacity.admits s.mem (s.reg rc).toNat = true →
      (∀ (id : Word) (rest : List Word),
        (s.mem.free = id :: rest ∨ (s.mem.free = [] ∧ rest = [] ∧ s.mem.nextId < 2 ^ 64 ∧ id = BitVec.ofNat 64 s.mem.nextId)) →
        ∃ m : Memory, exec (.mapseg rb rc) s = .next ({ s with mem := m }.afterWriting rb id) ∧
          m.lengthOf id = some (s.reg rc).toNat ∧
          (∀ (a : Access) (i : Word), i.toNat < (s.reg rc).toNat → memRead a m id i = .ok 0#64) ∧
          (∀ id', id' ≠ id → SameSegment s.mem m id' ∧ m.lengthOf id' = s.mem.lengthOf id') ∧
          m.free = rest ∧ m.nextId = (if s.mem.free = [] then s.mem.nextId + 1 else s.mem.nextId) ∧
          (s.Inv → s.mem.live 0#64 = true → id ≠ 0#64)) ∧
      (s.mem.free = [] → s.mem.nextId = 2 ^ 64 →
        exec (.mapseg rb rc) s = faultTaken s (.allocFailed (s.reg rc).toNat))) ∧
    (s.isWritten rc = true → s.capacity.admits s.mem (s.reg rc).toNat = false →
      exec (.mapseg rb rc) s = faultTaken s (.allocFailed (s.reg rc).toNat)) ∧
    (s.isWritten rc = false → exec (.mapseg rb rc) s = faultTaken s (.unwrittenRegister rc))

/-- R92, R38: the id leaves the live ones and goes on top of the pool; a release of an id that is not live is a fault. -/
def Obligations.UnmapsegReleasesALiveSegment : Prop :=
  (∀ w : InstrWord, fieldAt w 31 28 = 9 → decode w = .unmapseg (fieldAt w 2 0)) ∧
  ∀ (s : State) (rc : Nat), rc < 8 →
    (s.isWritten rc = true → s.mem.live (s.reg rc) = true →
      ∃ m : Memory, exec (.unmapseg rc) s = .next { s with mem := m, pc := s.pc + 1#64 } ∧
        m.live (s.reg rc) = false ∧ (∀ id', id' ≠ s.reg rc → SameSegment s.mem m id' ∧ m.lengthOf id' = s.mem.lengthOf id') ∧
        m.free = s.reg rc :: s.mem.free ∧ m.nextId = s.mem.nextId) ∧
    (s.isWritten rc = true → s.mem.live (s.reg rc) = false →
      exec (.unmapseg rc) s = faultTaken s (.invalidRelease (s.reg rc))) ∧
    (s.isWritten rc = false → exec (.unmapseg rc) s = faultTaken s (.unwrittenRegister rc))

/-! ## Control instructions -/

/-- R93: HALT reads nothing, whatever its unused bits hold, and only the run state changes. -/
def Obligations.HaltHalts : Prop :=
  (∀ w : InstrWord, fieldAt w 31 28 = 7 → decode w = .halt) ∧
  ∀ s : State, exec .halt s = .next { s with run := .halted }

/-- R94: a jump for `x[rb] = 0`, else segment 0 becomes a copy of segment `x[rb]`; the pc is `x[rc]` in both. -/
def Obligations.LpLoadsAProgramAndJumps : Prop :=
  (∀ w : InstrWord, fieldAt w 31 28 = 12 → decode w = .lp (fieldAt w 5 3) (fieldAt w 2 0)) ∧
  ∀ (s : State) (rb rc : Nat), rb < 8 → rc < 8 →
    (s.isWritten rb = true → s.isWritten rc = true →
      (s.reg rb = 0#64 → exec (.lp rb rc) s = .next { s with pc := s.reg rc }) ∧
      (s.reg rb ≠ 0#64 → s.mem.live (s.reg rb) = false →
        exec (.lp rb rc) s = faultTaken s (.outOfBounds (s.reg rb) none .notLive .copy)) ∧
      (∀ n, s.reg rb ≠ 0#64 → s.mem.lengthOf (s.reg rb) = some n → s.mem.live 0#64 = false →
        exec (.lp rb rc) s = faultTaken s (.outOfBounds 0#64 none .notLive .copy)) ∧
      (∀ n, s.reg rb ≠ 0#64 → s.mem.lengthOf (s.reg rb) = some n → s.mem.live 0#64 = true →
        s.capacity.admits s.mem n = false → exec (.lp rb rc) s = faultTaken s (.allocFailed n)) ∧
      (∀ n, s.reg rb ≠ 0#64 → s.mem.lengthOf (s.reg rb) = some n → s.mem.live 0#64 = true →
        s.capacity.admits s.mem n = true →
        ∃ m : Memory, exec (.lp rb rc) s = .next { s with mem := m, pc := s.reg rc } ∧
          m.lengthOf 0#64 = some n ∧
          (∀ (a : Access) (i v : Word), memRead a m 0#64 i = .ok v ↔ memRead a s.mem (s.reg rb) i = .ok v) ∧
          (∀ id, id ≠ 0#64 → SameSegment s.mem m id ∧ m.lengthOf id = s.mem.lengthOf id) ∧
          m.free = s.mem.free ∧ m.nextId = s.mem.nextId)) ∧
    (s.isWritten rb = false → exec (.lp rb rc) s = faultTaken s (.unwrittenRegister rb)) ∧
    (s.isWritten rb = true → s.isWritten rc = false → exec (.lp rb rc) s = faultTaken s (.unwrittenRegister rc))

/-- R95, R61: the words with opcode 14 or 15 are exactly the invalid ones; their instructions `invalid14` and `invalid15` raise
InvalidOpcode with the whole word, in every state. -/
def Obligations.InvalidOpcodesFault : Prop :=
  ∀ w : InstrWord, (decodeOpcode w = .invalid ↔ fieldAt w 31 28 = 14 ∨ fieldAt w 31 28 = 15) ∧
    (fieldAt w 31 28 = 14 → decode w = .invalid14 (fieldAt w 27 0) ∧
      ∀ s : State, exec (.invalid14 (fieldAt w 27 0)) s = faultTaken s (.invalidOpcode w)) ∧
    (fieldAt w 31 28 = 15 → decode w = .invalid15 (fieldAt w 27 0) ∧
      ∀ s : State, exec (.invalid15 (fieldAt w 27 0)) s = faultTaken s (.invalidOpcode w))

/-! ## Console instructions -/

/-- R96. -/
def Obligations.OutEmitsOneByte : Prop :=
  (∀ w : InstrWord, fieldAt w 31 28 = 10 → decode w = .out (fieldAt w 2 0)) ∧
  ∀ (s : State) (rc : Nat), rc < 8 →
    (s.isWritten rc = true → (s.reg rc).toNat ≤ 255 →
      exec (.out rc) s =
        .next { s with output := s.output ++ [BitVec.ofNat 8 (s.reg rc).toNat], pc := s.pc + 1#64 }) ∧
    (s.isWritten rc = true → 255 < (s.reg rc).toNat → exec (.out rc) s = faultTaken s (.outputRange (s.reg rc))) ∧
    (s.isWritten rc = false → exec (.out rc) s = faultTaken s (.unwrittenRegister rc))

/-- R97: an answered byte is zero-extended, an end of input gives `2^64 - 1`; In reads no register. -/
def Obligations.InReceivesAByteOrTheSentinel : Prop :=
  (∀ w : InstrWord, fieldAt w 31 28 = 11 → decode w = .input (fieldAt w 2 0)) ∧
  ∀ (s : State) (rc : Nat) (rest : List InAnswer), rc < 8 →
    (∀ b : Byte, s.input = .byte b :: rest →
      exec (.input rc) s = .next ({ s with input := rest }.afterWriting rc (BitVec.ofNat 64 b.toNat))) ∧
    (s.input = .eof :: rest →
      exec (.input rc) s = .next ({ s with input := rest }.afterWriting rc (BitVec.ofNat 64 (2 ^ 64 - 1))))

/-- R97, R109, in the model's form of a wait (log 9): while the environment does not answer, In changes nothing. -/
def Obligations.InWaitsForAnAnswer : Prop :=
  ∀ (s : State) (rc : Nat), rc < 8 → s.input = [] → exec (.input rc) s = .next s

/-! ## Rules of all instructions -/

/-- R18, R101 step 4: the first unwritten register among those an instruction reads, in reading order, is its fault. -/
def Obligations.ReadOfAnUnwrittenRegisterFaults : Prop :=
  ∀ (i : Instr) (s : State) (r : Nat), (∀ q ∈ i.registers, q < 8) →
    (registersRead i s).find? (fun q => !s.isWritten q) = some r → exec i s = faultTaken s (.unwrittenRegister r)

/-- R19, R75, R101 step 3: a register number past the file is the fault OutOfBounds, before everything else; no word decodes to
one. Of several such numbers the first in field order is named: the model's choice (log 27). -/
def Obligations.RegisterNumberPastTheFileFaults : Prop :=
  (∀ (i : Instr) (s : State) (r : Nat), i.registers.find? (fun q => decide (8 ≤ q)) = some r →
    exec i s = faultTaken s (.registerOutOfBounds r)) ∧
  ∀ w : InstrWord, ∀ r ∈ (decode w).registers, r < 8

/-- R77, R99: a fault leaves everything but the run state and the record as it was, and the record names pc and word. -/
def Obligations.FaultsArePrecise : Prop :=
  ∀ (i : Instr) (s t : State), s.run ≠ .faulted → exec i s = .next t → t.run = .faulted →
    ∃ c : FaultCause, t = { s with run := .faulted, record := some { cause := c, pc := s.pc, word := s.fetchedWord } }

/-- R98: the kinds and codes of the causes. -/
def Obligations.FaultCodesFollowTheTable : Prop :=
  (∀ w, (FaultCause.invalidOpcode w).kind.code = 1) ∧ (∀ d, (FaultCause.divideByZero d).kind.code = 2) ∧
  (∀ v, (FaultCause.outputRange v).kind.code = 3) ∧
  (∀ g x y a, (FaultCause.outOfBounds g x y a).kind.code = 4) ∧ (∀ r, (FaultCause.registerOutOfBounds r).kind.code = 4) ∧
  (∀ g, (FaultCause.invalidRelease g).kind.code = 5) ∧ (∀ n, (FaultCause.allocFailed n).kind.code = 6) ∧
  (∀ r, (FaultCause.unwrittenRegister r).kind.code = 7) ∧ (∀ ps, (FaultCause.missingPart ps).kind.code = 8)

/-- R16: an instruction changes no register but its destination, value and mark. -/
def Obligations.OnlyTheDestinationRegisterChanges : Prop :=
  ∀ (i : Instr) (s t : State), exec i s = .next t →
    ∀ r, i.destination ≠ some r → t.reg r = s.reg r ∧ t.isWritten r = s.isWritten r

/-- R16, R22, R25, R26, R27: the frame of the forms that store nothing: add, mul, div, nand, cmov, lv, load, halt, out, in and the
invalid words leave all of memory and the allocator as it was. -/
def Obligations.FormsThatStoreNothingLeaveMemory : Prop :=
  ∀ (i : Instr) (s t : State), exec i s = .next t →
    (∀ ra rb rc, i ≠ .store ra rb rc) → (∀ rb rc, i ≠ .mapseg rb rc) → (∀ rc, i ≠ .unmapseg rc) → (∀ rb rc, i ≠ .lp rb rc) →
    (∀ (a : Access) (id k : Word), memRead a t.mem id k = memRead a s.mem id k) ∧
    (∀ id, t.mem.lengthOf id = s.mem.lengthOf id) ∧ t.mem.free = s.mem.free ∧ t.mem.nextId = s.mem.nextId

/-- R40, R90: the frame of Store, in every outcome: every address but the one of `storeAddress` reads as before, and no length, pool,
next id, register, output or input changes (the rest of the state: PortsRecordAndLaunchAreLeftAlone). -/
def Obligations.StoreLeavesEveryOtherAddress : Prop :=
  ∀ (s t : State) (ra rb rc : Nat) (id k : Word), exec (.store ra rb rc) s = .next t → storeAddress s ra rb = (id, k) →
    (∀ (a : Access) (id' k' : Word), (id', k') ≠ (id, k) → memRead a t.mem id' k' = memRead a s.mem id' k') ∧
    (∀ id', t.mem.lengthOf id' = s.mem.lengthOf id') ∧ t.mem.free = s.mem.free ∧ t.mem.nextId = s.mem.nextId ∧
    (∀ r, t.reg r = s.reg r ∧ t.isWritten r = s.isWritten r) ∧ t.output = s.output ∧ t.input = s.input

/-- R37, R38, R41: the frame of MapSeg, UnmapSeg and LP, completed: every segment reads as before but the one made (whose id was
not live in a state of the invariant), the one released, and segment 0. -/
def Obligations.AllocatorInstructionsLeaveOtherSegments : Prop :=
  ∀ (i : Instr) (s t : State) (target : Word), s.Inv → exec i s = .next t → t.run ≠ .faulted →
    (∃ rb rc, i = .mapseg rb rc ∧ rb < 8 ∧ target = t.reg rb) ∨ (∃ rc, i = .unmapseg rc ∧ target = s.reg rc) ∨
      (∃ rb rc, i = .lp rb rc ∧ target = 0#64) →
    (∀ id, id ≠ target → SameSegment s.mem t.mem id ∧ t.mem.lengthOf id = s.mem.lengthOf id) ∧
    ((∃ rb rc, i = .mapseg rb rc) → s.mem.live target = false ∧ t.mem.live target = true)

/-- R24, R26, R27, R106: what every instruction leaves alone: the record unless it faults, the output unless it is Out, the port's
answers unless it is In, and always the parts, the storage and the capacity. -/
def Obligations.PortsRecordAndLaunchAreLeftAlone : Prop :=
  ∀ (i : Instr) (s t : State), exec i s = .next t →
    (t.run ≠ .faulted → t.record = s.record) ∧ ((∀ rc, i ≠ .out rc) → t.output = s.output) ∧
    ((∀ rc, i ≠ .input rc) → t.input = s.input) ∧ t.parts = s.parts ∧ t.storage = s.storage ∧ t.capacity = s.capacity

/-- R26: a step appends at most one byte to the output stream and takes none back. -/
def Obligations.OutputOnlyGrows : Prop :=
  ∀ s t : State, step s = .next t → t.output = s.output ∨ ∃ b : Byte, t.output = s.output ++ [b]

/-- R78: where the pc goes. -/
def Obligations.PcMovesByOneExceptLpHaltAndFaults : Prop :=
  ∀ (i : Instr) (s t : State), s.run = .running → exec i s = .next t →
    (t.run = .faulted ∧ t.pc = s.pc) ∨ (i = .halt ∧ t.pc = s.pc) ∨ (∃ rb rc, i = .lp rb rc ∧ t.pc = s.reg rc) ∨
      ((∃ rc, i = .input rc) ∧ s.input = [] ∧ t = s) ∨
      ((∀ rb rc, i ≠ .lp rb rc) ∧ i ≠ .halt ∧ t.run = .running ∧ t.pc = s.pc + 1#64)

/-- R27, R102, R110: what the environment will answer reaches no instruction but In. -/
def Obligations.InputReachesOnlyIn : Prop :=
  ∀ (i : Instr) (s t : State) (answers : List InAnswer), (∀ rc, i ≠ .input rc) → exec i s = .next t →
    exec i { s with input := answers } = .next { t with input := answers }

/-- R50, R116: a Store to the next index of segment 0 is the very next instruction, its bits 63:32 ignored. -/
def Obligations.StoreToTheNextIndexIsExecutedNext : Prop :=
  ∀ (s t : State) (ra rb rc : Nat), s.run = .running → exec (.store ra rb rc) s = .next t → t.run = .running →
    storeAddress s ra rb = (0#64, s.pc + 1#64) → step t = exec (decode (BitVec.ofNat 32 (s.reg rc).toNat)) t

/-- R73, R92: releasing segment 0 succeeds, and the next fetch faults OutOfBounds. -/
def Obligations.ReleasingSegmentZeroFaultsTheNextFetch : Prop :=
  ∀ (s : State) (rc : Nat), s.run = .running → rc < 8 → s.isWritten rc = true → s.reg rc = 0#64 → s.mem.live 0#64 = true →
    ∃ t, exec (.unmapseg rc) s = .next t ∧ t.run = .running ∧ t.mem.live 0#64 = false ∧
      step t = .next { t with
        run := .faulted
        record := some { cause := .outOfBounds 0#64 (some (s.pc + 1#64)) .notLive .fetch, pc := s.pc + 1#64, word := none } }

/-- R21: after a fetch that succeeds, `pc + 1` does not wrap. -/
def Obligations.PcIncrementNeverWraps : Prop :=
  ∀ (s : State) (cell : Word), s.mem.wf → memRead .fetch s.mem 0#64 s.pc = .ok cell →
    (s.pc + 1#64).toNat = s.pc.toNat + 1

/-- R73, R91: while a program runs, MapSeg never answers id 0. -/
def Obligations.MapsegNeverAnswersZero : Prop :=
  ∀ (s t : State) (cell : Word) (rb rc : Nat), s.Inv → s.run = .running → memRead .fetch s.mem 0#64 s.pc = .ok cell →
    decode (BitVec.ofNat 32 cell.toNat) = .mapseg rb rc → step s = .next t → t.run ≠ .faulted → t.reg rb ≠ 0#64

/-! ## The memory and its allocator -/

/-- R39, R40: a read of a written word gives the value; a write leaves every other word and every length alone; both fail alike,
liveness before bounds. -/
def Obligations.MemoryReadsWhatWasWritten : Prop :=
  ∀ (a b : Access) (m : Memory) (id i v : Word),
    (m.live id = false → memRead a m id i = .error (.outOfBounds id (some i) .notLive a) ∧
      memWrite a m id i v = .error (.outOfBounds id (some i) .notLive a)) ∧
    (∀ n, m.lengthOf id = some n → n ≤ i.toNat → memRead a m id i = .error (.outOfBounds id (some i) .pastEnd a) ∧
      memWrite a m id i v = .error (.outOfBounds id (some i) .pastEnd a)) ∧
    (∀ n, m.lengthOf id = some n → i.toNat < n →
      (∃ u, memRead a m id i = .ok u) ∧
      ∃ m', memWrite a m id i v = .ok m' ∧ memRead b m' id i = .ok v ∧ (∀ id', m'.lengthOf id' = m.lengthOf id') ∧
        ∀ id' i', (id', i') ≠ (id, i) → memRead b m' id' i' = memRead b m id' i')

/-- R41: Duplicate makes a snapshot: the target reads as the source, every other segment as before, a later write to one does not
reach the other, and with both ids the same nothing changes. -/
def Obligations.DuplicateCopiesASnapshot : Prop :=
  ∀ (c : Capacity) (m : Memory) (f t : Word),
    (m.live f = false → duplicate c m f t = .error (.outOfBounds f none .notLive .copy)) ∧
    (m.live f = true → m.live t = false → duplicate c m f t = .error (.outOfBounds t none .notLive .copy)) ∧
    (∀ n, m.lengthOf f = some n → m.live t = true → c.admits m n = false → duplicate c m f t = .error (.allocFailed n)) ∧
    (∀ n, m.lengthOf f = some n → m.live t = true → c.admits m n = true →
      ∃ m', duplicate c m f t = .ok m' ∧ m'.lengthOf t = some n ∧
        (∀ (a : Access) (i v : Word), memRead a m' t i = .ok v ↔ memRead a m f i = .ok v) ∧
        (∀ id, id ≠ t → SameSegment m m' id) ∧ (f = t → ∀ id, SameSegment m m' id) ∧
        (∀ (a b : Access) (i v : Word) (m'' : Memory), f ≠ t → memWrite b m' f i v = .ok m'' →
          ∀ j, memRead a m'' t j = memRead a m' t j) ∧
        (∀ (a b : Access) (i v : Word) (m'' : Memory), f ≠ t → memWrite b m' t i v = .ok m'' →
          ∀ j, memRead a m'' f j = memRead a m' f j))

/-- R42, R37, R38: a released id is the next one allocated, its new segment is all zeros, and a program that kept the id reaches the
new segment. -/
def Obligations.ReleasedIdIsReusedZeroed : Prop :=
  ∀ (c : Capacity) (m m' : Memory) (id : Word) (n : Nat), release m id = .ok m' → n < 2 ^ 64 → c.admits m' n = true →
    ∃ m'', alloc c m' n = .ok (id, m'') ∧ m''.live id = true ∧ m''.free = m.free ∧ m''.nextId = m.nextId ∧
      (∀ (a : Access) (i : Word), i.toNat < n → memRead a m'' id i = .ok 0#64)

/-- R33, R44 in the model's form (log 11): two canonical memories that read alike everywhere, with the same lengths, pool and next
id, are equal data. -/
def Obligations.CanonicalMemoriesThatReadAlikeAreEqual : Prop :=
  ∀ m m' : Memory, m.wf → m'.wf → (∀ id, m.lengthOf id = m'.lengthOf id) →
    (∀ (a : Access) (id i : Word), memRead a m id i = memRead a m' id i) → m.free = m'.free → m.nextId = m'.nextId → m = m'

/-- Every step keeps the memory's canonical form (log 11). -/
def Obligations.StepKeepsTheCanonicalMemory : Prop :=
  ∀ s t : State, s.mem.wf → step s = .next t → t.mem.wf

/-- R34, R35, R24, R21, R112: every step keeps the machine's invariant: the allocator's bookkeeping, a record exactly in Faulted, and
what the reset sequence has established. -/
def Obligations.StepKeepsTheInvariant : Prop :=
  ∀ s t : State, s.Inv → step s = .next t → t.Inv

/-- The invariant holds at reset and after every construction (R29, R35, R111). -/
def Obligations.ResetAndConstructionMeetTheInvariant : Prop :=
  State.reset.Inv ∧
  ∀ (parts : Parts) (storage : List (List Byte)) (input : List InAnswer) (capacity : Capacity) (z : Bool),
    (State.construct parts storage input capacity z).Inv

/-! ## The codec -/

/-- R66, R64, R69: decoding the encoding of a well-formed instruction gives it back, every instruction and every operand. -/
def Obligations.DecodeOfEncodeIsTheInstruction : Prop :=
  ∀ i : Instr, i.wellFormed = true → decode (encode i) = i

/-- R58, R62: what a word decodes to is well-formed, its canonical word decodes to the same, and where every bit is used (LV, invalid
words) the canonical word is the word itself. -/
def Obligations.EveryWordDecodesToAWellFormedInstruction : Prop :=
  ∀ w : InstrWord, (decode w).wellFormed = true ∧ decode (encode (decode w)) = decode w ∧
    (13 ≤ fieldAt w 31 28 → encode (decode w) = w)

/-- R58: words that agree on the opcode and on the fields it uses decode alike, whatever their unused bits hold. -/
def Obligations.UnusedBitsAreIgnored : Prop :=
  ∀ w w' : InstrWord, fieldAt w 31 28 = fieldAt w' 31 28 →
    (fieldAt w 31 28 ≤ 6 → fieldAt w 8 0 = fieldAt w' 8 0 → decode w = decode w') ∧
    (fieldAt w 31 28 = 7 → decode w = decode w') ∧
    (fieldAt w 31 28 = 8 ∨ fieldAt w 31 28 = 12 → fieldAt w 5 0 = fieldAt w' 5 0 → decode w = decode w') ∧
    (fieldAt w 31 28 = 9 ∨ fieldAt w 31 28 = 10 ∨ fieldAt w 31 28 = 11 → fieldAt w 2 0 = fieldAt w' 2 0 → decode w = decode w')

/-- R64: the word, and the failures. -/
def Obligations.EncodeThreeRegisterBuildsTheWord : Prop :=
  ∀ op ra rb rc : Nat,
    (op ≤ 13 → ra < 8 → rb < 8 → rc < 8 →
      encodeThreeRegister op ra rb rc =
        .ok ((BitVec.ofNat 32 op <<< 28) ||| (BitVec.ofNat 32 ra <<< 6) ||| (BitVec.ofNat 32 rb <<< 3) ||| BitVec.ofNat 32 rc)) ∧
    (13 < op ∨ 8 ≤ ra ∨ 8 ≤ rb ∨ 8 ≤ rc → encodeThreeRegister op ra rb rc = .error .invalidOperand)

/-- R65: the word, and the failures. -/
def Obligations.EncodeImmediateBuildsTheWord : Prop :=
  ∀ op rd value : Nat,
    (op ≤ 13 → rd < 8 → value < 2 ^ 25 →
      encodeImmediate op rd value =
        .ok ((BitVec.ofNat 32 op <<< 28) ||| (BitVec.ofNat 32 rd <<< 25) ||| BitVec.ofNat 32 value)) ∧
    (13 < op ∨ 8 ≤ rd ∨ 2 ^ 25 ≤ value → encodeImmediate op rd value = .error .invalidOperand)

/-- R66: the round-trip laws of the two encoders. -/
def Obligations.EncodersAndFieldDecodersAgree : Prop :=
  (∀ op ra rb rc : Nat, op ≤ 13 → ra < 8 → rb < 8 → rc < 8 →
    ∃ w, encodeThreeRegister op ra rb rc = .ok w ∧ decodeThreeRegister w = (ra, rb, rc) ∧
      decodeOpcode w = opcodeOfNumber op ∧ decodeOpcode w ≠ .invalid) ∧
  (∀ reg lv : Nat, reg < 8 → lv < 2 ^ 25 →
    ∃ w, encodeImmediate 13 reg lv = .ok w ∧ decodeImmediate w = (reg, lv) ∧ decodeOpcode w = .defined .lv)

/-- R55, R56, R60: words written out from the encoding tables and the instructions they stand for (95_test_vectors.md 2.1 to 2.5). -/
def Obligations.SampleWordsDecodeAsTheSpecSays : Prop :=
  decode 0x0007FE53#32 = .cmov 1 2 3 ∧ decode 0x10000153#32 = .load 5 2 3 ∧ decode 0x2000009C#32 = .store 2 3 4 ∧
  decode 0x300000D1#32 = .add 3 2 1 ∧ decode 0x500000CB#32 = .div 3 1 3 ∧ decode 0x7FFFFFFF#32 = .halt ∧
  decode 0x80000013#32 = .mapseg 2 3 ∧ decode 0x90000002#32 = .unmapseg 2 ∧ decode 0xA0000001#32 = .out 1 ∧
  decode 0xB0000001#32 = .input 1 ∧ decode 0xC0000008#32 = .lp 1 0 ∧ decode 0xDFFFFFFF#32 = .lv 7 33554431 ∧
  decode 0xE0000000#32 = .invalid14 0 ∧ decode 0xFFFFFFFF#32 = .invalid15 268435455

/-- R67, R68: the spec's own examples of disassembly and a listing line. -/
def Obligations.DisassemblyOfTheSpecsExamples : Prop :=
  disassemble 0x300000D1#32 = "add r3, r2, r1" ∧ disassemble 0xD0000005#32 = "lv r0, 5" ∧
  disassemble 0x70000000#32 = "halt" ∧ disassemble 0xF0000000#32 = "junk 0xF0000000" ∧
  disassemble 0x0007FE53#32 = "cmov r1, r2, r3" ∧ listingLine 12 0xE0000000#32 = "12: junk 0xE0000000"

/-- R69, D27: what the disassembler prints of a word with a defined opcode assembles to that instruction's canonical word. -/
def Obligations.DisassemblyReassembles : Prop :=
  ∀ w : InstrWord, fieldAt w 31 28 ≤ 13 → assembleLine (disassemble w) = .ok (encode (decode w))
end

