-- ==== Sys2Proof/Laws/Assoc.lean ====
section
/-! SUPPORT. The laws of the association lists: lookup after update, and the canonical order kept. -/

namespace Sys2Proof.Machine

variable {α : Type}

@[simp] theorem assocFind_nil (k : Nat) : assocFind ([] : List (Nat × α)) k = none := rfl

@[simp] theorem assocFind_assocSet_self (l : List (Nat × α)) (k : Nat) (v : α) :
    assocFind (assocSet l k v) k = some v := by
  induction l with
  | nil => simp [assocSet, assocFind]
  | cons p rest ih =>
    obtain ⟨k', v'⟩ := p
    by_cases h1 : k < k'
    · simp [assocSet, assocFind, h1]
    · by_cases h2 : k' = k
      · simp [assocSet, assocFind, h2]
      · simp [assocSet, assocFind, h1, h2, ih]

theorem assocFind_assocSet_ne (l : List (Nat × α)) {k x : Nat} (v : α) (h : k ≠ x) :
    assocFind (assocSet l k v) x = assocFind l x := by
  induction l with
  | nil => simp [assocSet, assocFind, h]
  | cons p rest ih =>
    obtain ⟨k', v'⟩ := p
    by_cases h1 : k < k'
    · simp [assocSet, assocFind, h1, h]
    · by_cases h2 : k' = k
      · subst h2; simp [assocSet, assocFind, h]
      · simp [assocSet, assocFind, h1, h2, ih]

@[simp] theorem assocFind_assocErase_self (l : List (Nat × α)) (k : Nat) :
    assocFind (assocErase l k) k = none := by
  induction l with
  | nil => rfl
  | cons p rest ih =>
    obtain ⟨k', v'⟩ := p
    by_cases h : k' = k
    · simp [assocErase, h, ih]
    · simp [assocErase, assocFind, h, ih]

theorem assocFind_assocErase_ne (l : List (Nat × α)) {k x : Nat} (h : k ≠ x) :
    assocFind (assocErase l k) x = assocFind l x := by
  induction l with
  | nil => rfl
  | cons p rest ih =>
    obtain ⟨k', v'⟩ := p
    by_cases h2 : k' = k
    · subst h2; simp [assocErase, assocFind, h, ih]
    · simp [assocErase, assocFind, h2, ih]

/-- What is found is listed. -/
theorem mem_of_assocFind {l : List (Nat × α)} {k : Nat} {v : α} (h : assocFind l k = some v) : (k, v) ∈ l := by
  induction l with
  | nil => simp at h
  | cons p rest ih =>
    obtain ⟨k', v'⟩ := p
    by_cases h2 : k' = k
    · subst h2
      simp only [assocFind, if_true, Option.some.injEq] at h
      simp [h]
    · simp only [assocFind, h2, if_false] at h
      exact List.mem_cons_of_mem _ (ih h)

/-- What is listed in a canonical list is found. -/
theorem assocFind_of_mem {l : List (Nat × α)} (hl : RisingKeys l) {k : Nat} {v : α} (h : (k, v) ∈ l) :
    assocFind l k = some v := by
  induction l with
  | nil => simp at h
  | cons p rest ih =>
    obtain ⟨k', v'⟩ := p
    simp only [RisingKeys, List.map_cons, List.pairwise_cons] at hl
    rcases List.mem_cons.1 h with h | h
    · cases h; simp [assocFind]
    · have hlt : k' < k := hl.1 k (List.mem_map.2 ⟨(k, v), h, rfl⟩)
      simp [assocFind, Nat.ne_of_lt hlt, ih hl.2 h]

/-- An update's entries are the new one and old ones. -/
theorem mem_assocSet {l : List (Nat × α)} {k : Nat} {v : α} {p : Nat × α} (h : p ∈ assocSet l k v) :
    p = (k, v) ∨ p ∈ l := by
  induction l with
  | nil => simpa [assocSet] using h
  | cons q rest ih =>
    obtain ⟨k', v'⟩ := q
    by_cases h1 : k < k'
    · simp only [assocSet, h1, if_true, List.mem_cons] at h
      simpa using h
    · by_cases h2 : k' = k
      · subst h2
        simp only [assocSet, Nat.lt_irrefl, if_true, if_false, List.mem_cons] at h
        rcases h with h | h
        · exact .inl h
        · exact .inr (List.mem_cons_of_mem _ h)
      · simp only [assocSet, h1, h2, if_false, List.mem_cons] at h
        rcases h with h | h
        · exact .inr (by simp [h])
        · rcases ih h with h | h
          · exact .inl h
          · exact .inr (List.mem_cons_of_mem _ h)

/-- A removal's entries are old ones. -/
theorem mem_assocErase {l : List (Nat × α)} {k : Nat} {p : Nat × α} (h : p ∈ assocErase l k) : p ∈ l := by
  induction l with
  | nil => simp [assocErase] at h
  | cons q rest ih =>
    obtain ⟨k', v'⟩ := q
    by_cases h2 : k' = k
    · simp only [assocErase, h2, if_true] at h
      exact List.mem_cons_of_mem _ (ih h)
    · simp only [assocErase, h2, if_false, List.mem_cons] at h
      rcases h with h | h
      · simp [h]
      · exact List.mem_cons_of_mem _ (ih h)

/-- An update keeps the keys rising. -/
theorem risingKeys_assocSet {l : List (Nat × α)} (hl : RisingKeys l) (k : Nat) (v : α) :
    RisingKeys (assocSet l k v) := by
  induction l with
  | nil => simp [assocSet, RisingKeys]
  | cons p rest ih =>
    obtain ⟨k', v'⟩ := p
    have hcons := hl
    simp only [RisingKeys, List.map_cons, List.pairwise_cons] at hcons
    by_cases h1 : k < k'
    · simp only [assocSet, h1, if_true, RisingKeys, List.map_cons, List.pairwise_cons]
      refine ⟨?_, hcons⟩
      intro x hx
      rcases List.mem_cons.1 hx with hx | hx
      · exact hx ▸ h1
      · exact Nat.lt_trans h1 (hcons.1 x hx)
    · by_cases h2 : k' = k
      · subst h2
        simpa [assocSet, RisingKeys] using hcons
      · simp only [assocSet, h1, h2, if_false, RisingKeys, List.map_cons, List.pairwise_cons]
        refine ⟨?_, ih hcons.2⟩
        intro x hx
        obtain ⟨q, hq, rfl⟩ := List.mem_map.1 hx
        rcases mem_assocSet hq with hq | hq
        · subst hq; show k' < k; omega
        · exact hcons.1 _ (List.mem_map.2 ⟨q, hq, rfl⟩)

/-- A removal keeps the keys rising. -/
theorem risingKeys_assocErase {l : List (Nat × α)} (hl : RisingKeys l) (k : Nat) : RisingKeys (assocErase l k) := by
  induction l with
  | nil => simp [assocErase, RisingKeys]
  | cons p rest ih =>
    obtain ⟨k', v'⟩ := p
    simp only [RisingKeys, List.map_cons, List.pairwise_cons] at hl
    by_cases h2 : k' = k
    · simpa [assocErase, h2] using ih hl.2
    · simp only [assocErase, h2, if_false, RisingKeys, List.map_cons, List.pairwise_cons]
      refine ⟨?_, ih hl.2⟩
      intro x hx
      obtain ⟨q, hq, rfl⟩ := List.mem_map.1 hx
      exact hl.1 _ (List.mem_map.2 ⟨q, mem_assocErase hq, rfl⟩)

end Sys2Proof.Machine
end

