-- ==== Sys2Proof/Laws/Memory.lean ====
section
/-! SUPPORT. The laws of segments and of the allocator's operations: what each can answer, read after write, and that each keeps
the memory's canonical form. -/

namespace Sys2Proof.Machine

/-! ## Segments -/

@[simp] theorem Segment.put_length (g : Segment) (i : Nat) (v : Word) : (g.put i v).length = g.length := rfl
@[simp] theorem Segment.zeros_length (n : Nat) : (Segment.zeros n).length = n := rfl
@[simp] theorem Segment.zeros_get (n i : Nat) : (Segment.zeros n).get i = 0#64 := rfl

@[simp] theorem Segment.get_put_self (g : Segment) (i : Nat) (v : Word) : (g.put i v).get i = v := by
  by_cases h : v = 0#64
  · simp [Segment.put, Segment.get, h]
  · simp [Segment.put, Segment.get, h]

theorem Segment.get_put_ne (g : Segment) {i j : Nat} (v : Word) (hij : i ≠ j) : (g.put i v).get j = g.get j := by
  by_cases h : v = 0#64
  · simp [Segment.put, Segment.get, h, assocFind_assocErase_ne _ hij]
  · simp [Segment.put, Segment.get, h, assocFind_assocSet_ne _ v hij]

/-- A new segment is canonical. -/
theorem Segment.zeros_wf {n : Nat} (h : n < wordLimit) : (Segment.zeros n).wf := by
  refine ⟨?_, ?_, h⟩
  · simp [Segment.zeros, RisingKeys]
  · intro c hc
    simp [Segment.zeros] at hc

/-- A write inside a segment keeps it canonical. -/
theorem Segment.put_wf {g : Segment} (hg : g.wf) {i : Nat} (hi : i < g.length) (v : Word) : (g.put i v).wf := by
  obtain ⟨hrise, hcells, hlen⟩ := hg
  by_cases h : v = 0#64
  · refine ⟨?_, ?_, hlen⟩
    · simpa [Segment.put, h] using risingKeys_assocErase hrise i
    · intro c hc
      exact hcells c (mem_assocErase (by simpa [Segment.put, h] using hc))
  · refine ⟨?_, ?_, hlen⟩
    · simpa [Segment.put, h] using risingKeys_assocSet hrise i v
    · intro c hc
      rcases mem_assocSet (by simpa [Segment.put, h] using hc) with rfl | hc
      · exact ⟨hi, h⟩
      · exact hcells c hc

/-! ## The segment map -/

@[simp] theorem Memory.setSegment_free (m : Memory) (s : Word) (g : Segment) : (m.setSegment s g).free = m.free := rfl
@[simp] theorem Memory.setSegment_nextId (m : Memory) (s : Word) (g : Segment) :
    (m.setSegment s g).nextId = m.nextId := rfl

@[simp] theorem Memory.segment_setSegment_self (m : Memory) (s : Word) (g : Segment) :
    (m.setSegment s g).segment s = some g := by
  simp [Memory.segment, Memory.setSegment]

theorem Memory.segment_setSegment_ne (m : Memory) {s x : Word} (g : Segment) (h : s ≠ x) :
    (m.setSegment s g).segment x = m.segment x := by
  have hne : s.toNat ≠ x.toNat := fun he => h (BitVec.eq_of_toNat_eq he)
  simp [Memory.segment, Memory.setSegment, assocFind_assocSet_ne _ g hne]

@[simp] theorem Memory.live_setSegment_self (m : Memory) (s : Word) (g : Segment) : (m.setSegment s g).live s = true := by
  simp [Memory.live]

theorem Memory.live_setSegment_ne (m : Memory) {s x : Word} (g : Segment) (h : s ≠ x) :
    (m.setSegment s g).live x = m.live x := by
  simp [Memory.live, Memory.segment_setSegment_ne m g h]

/-- A live id has a segment. -/
theorem Memory.live_iff_segment (m : Memory) (s : Word) : m.live s = true ↔ ∃ g, m.segment s = some g := by
  simp [Memory.live, Option.isSome_iff_exists]

/-- Replacing a live id's segment changes no id's liveness. -/
theorem Memory.live_setSegment_of_live (m : Memory) {s : Word} (g : Segment) (h : m.live s = true) (x : Word) :
    (m.setSegment s g).live x = m.live x := by
  by_cases hx : s = x
  · subst hx; simp [h]
  · exact m.live_setSegment_ne g hx

/-- The segment map without id `s`. -/
theorem Memory.segment_erase_self (m : Memory) (s : Word) (f : List Word) :
    ({ m with segs := assocErase m.segs s.toNat, free := f } : Memory).segment s = none := by
  simp [Memory.segment]

theorem Memory.segment_erase_ne (m : Memory) {s x : Word} (f : List Word) (h : s ≠ x) :
    ({ m with segs := assocErase m.segs s.toNat, free := f } : Memory).segment x = m.segment x := by
  have hne : s.toNat ≠ x.toNat := fun he => h (BitVec.eq_of_toNat_eq he)
  simp [Memory.segment, assocFind_assocErase_ne _ hne]

/-- A segment of a canonical memory is canonical. -/
theorem Memory.segment_wf {m : Memory} (hm : m.wf) {s : Word} {g : Segment} (h : m.segment s = some g) : g.wf :=
  (hm.2 _ (mem_of_assocFind h)).2

/-- Replacing or making a canonical segment keeps the memory canonical. -/
theorem Memory.setSegment_wf {m : Memory} (hm : m.wf) (s : Word) {g : Segment} (hg : g.wf) : (m.setSegment s g).wf := by
  refine ⟨risingKeys_assocSet hm.1 _ _, ?_⟩
  intro p hp
  rcases mem_assocSet hp with rfl | hp
  · exact ⟨s.isLt, hg⟩
  · exact hm.2 p hp

/-! ## What each operation answers -/

/-- MemRead answers the cell of a live segment below its end (R39). -/
theorem memRead_ok_iff {a : Access} {m : Memory} {s i v : Word} :
    memRead a m s i = .ok v ↔ ∃ g, m.segment s = some g ∧ i.toNat < g.length ∧ g.get i.toNat = v := by
  unfold memRead
  cases h : m.segment s with
  | none => simp
  | some g => by_cases hi : i.toNat < g.length <;> simp [hi]

/-- A memory is read through its segments alone. -/
theorem memRead_congr {a : Access} {m m' : Memory} {s : Word} (h : m.segment s = m'.segment s) (i : Word) :
    memRead a m s i = memRead a m' s i := by
  simp [memRead, h]

/-- MemWrite replaces one cell of a live segment below its end (R40). -/
theorem memWrite_ok_iff {a : Access} {m m' : Memory} {s i v : Word} :
    memWrite a m s i v = .ok m' ↔
      ∃ g, m.segment s = some g ∧ i.toNat < g.length ∧ m.setSegment s (g.put i.toNat v) = m' := by
  unfold memWrite
  cases h : m.segment s with
  | none => simp
  | some g => by_cases hi : i.toNat < g.length <;> simp [hi]

/-- Alloc answers the most recently released id, or mints the next one (R37). -/
theorem alloc_cases {c : Capacity} {m : Memory} {n : Nat} {r : Word × Memory} (h : alloc c m n = .ok r) :
    n < wordLimit ∧ c.admits m n = true ∧
      ((∃ id rest, m.free = id :: rest ∧ r = (id, { m with free := rest }.setSegment id (Segment.zeros n))) ∨
       (m.free = [] ∧ m.nextId < wordLimit ∧
        r = (BitVec.ofNat 64 m.nextId,
          { m with nextId := m.nextId + 1 }.setSegment (BitVec.ofNat 64 m.nextId) (Segment.zeros n)))) := by
  unfold alloc at h
  by_cases hc : n < wordLimit ∧ c.admits m n = true
  · rw [if_pos hc] at h
    refine ⟨hc.1, hc.2, ?_⟩
    cases hf : m.free with
    | cons id rest =>
      rw [hf] at h
      exact .inl ⟨id, rest, rfl, (Except.ok.inj h).symm⟩
    | nil =>
      rw [hf] at h
      by_cases hn : m.nextId < wordLimit
      · simp only [hn, if_true] at h
        exact .inr ⟨rfl, hn, (Except.ok.inj h).symm⟩
      · simp only [hn, if_false] at h
        cases h
  · rw [if_neg hc] at h
    cases h

/-- Release takes a live id out of the map and pushes it (R38). -/
theorem release_ok_iff {m m' : Memory} {s : Word} :
    release m s = .ok m' ↔
      m.live s = true ∧ { m with segs := assocErase m.segs s.toNat, free := s :: m.free } = m' := by
  unfold release
  by_cases h : m.live s = true <;> simp [h]

/-- Duplicate makes a live segment a copy of a live one (R41). -/
theorem duplicate_ok_iff {c : Capacity} {m m' : Memory} {f t : Word} :
    duplicate c m f t = .ok m' ↔
      ∃ g, m.segment f = some g ∧ m.live t = true ∧ c.admits m g.length = true ∧ m.setSegment t g = m' := by
  unfold duplicate
  cases h : m.segment f with
  | none => simp
  | some g =>
    by_cases ht : m.live t = true
    · by_cases hc : c.admits m g.length = true <;> simp [ht, hc]
    · simp [ht]

/-! ## The canonical form is kept -/

theorem memWrite_wf {a : Access} {m m' : Memory} {s i v : Word} (hm : m.wf) (h : memWrite a m s i v = .ok m') : m'.wf := by
  obtain ⟨g, hg, hi, rfl⟩ := memWrite_ok_iff.1 h
  exact Memory.setSegment_wf hm s (Segment.put_wf (Memory.segment_wf hm hg) hi v)

theorem alloc_wf {c : Capacity} {m : Memory} {n : Nat} {r : Word × Memory} (hm : m.wf) (h : alloc c m n = .ok r) :
    r.2.wf := by
  obtain ⟨hn, -, ⟨id, rest, -, rfl⟩ | ⟨-, -, rfl⟩⟩ := alloc_cases h
  · exact Memory.setSegment_wf (m := { m with free := rest }) hm id (Segment.zeros_wf hn)
  · exact Memory.setSegment_wf (m := { m with nextId := m.nextId + 1 }) hm _ (Segment.zeros_wf hn)

theorem release_wf {m m' : Memory} {s : Word} (hm : m.wf) (h : release m s = .ok m') : m'.wf := by
  obtain ⟨-, rfl⟩ := release_ok_iff.1 h
  exact ⟨risingKeys_assocErase hm.1 _, fun p hp => hm.2 p (mem_assocErase hp)⟩

theorem duplicate_wf {c : Capacity} {m m' : Memory} {f t : Word} (hm : m.wf) (h : duplicate c m f t = .ok m') : m'.wf := by
  obtain ⟨g, hg, -, -, rfl⟩ := duplicate_ok_iff.1 h
  exact Memory.setSegment_wf hm t (Memory.segment_wf hm hg)

/-- The memory at reset is canonical. -/
theorem reset_memory_wf : State.reset.mem.wf := by decide

end Sys2Proof.Machine
end

