-- ==== Sys2Proof/Laws/Allocator.lean ====
section
/-! SUPPORT. Each operation of the memory keeps the allocator's invariant (R34), operation by operation. -/

namespace Sys2Proof.Machine

/-- Replacing a live segment keeps the bookkeeping. -/
theorem Memory.allocatorInv_setSegment {m : Memory} (h : m.allocatorInv) {s : Word} (hl : m.live s = true) (g : Segment) :
    (m.setSegment s g).allocatorInv where
  live_iff id := by
    rw [m.live_setSegment_of_live g hl id]
    exact h.live_iff id
  free_minted := h.free_minted
  free_nodup := h.free_nodup
  nextId_le := h.nextId_le

theorem memWrite_allocatorInv {a : Access} {m m' : Memory} {s i v : Word} (h : m.allocatorInv)
    (hw : memWrite a m s i v = .ok m') : m'.allocatorInv := by
  obtain ⟨g, hg, -, rfl⟩ := memWrite_ok_iff.1 hw
  exact Memory.allocatorInv_setSegment h ((m.live_iff_segment s).2 ⟨g, hg⟩) _

theorem duplicate_allocatorInv {c : Capacity} {m m' : Memory} {f t : Word} (h : m.allocatorInv)
    (hd : duplicate c m f t = .ok m') : m'.allocatorInv := by
  obtain ⟨g, -, ht, -, rfl⟩ := duplicate_ok_iff.1 hd
  exact Memory.allocatorInv_setSegment h ht g

theorem release_allocatorInv {m m' : Memory} {s : Word} (h : m.allocatorInv) (hr : release m s = .ok m') :
    m'.allocatorInv := by
  obtain ⟨hl, rfl⟩ := release_ok_iff.1 hr
  have hs := (h.live_iff s).1 hl
  refine ⟨fun id => ?_, ?_, ?_, h.nextId_le⟩
  · by_cases hid : s = id
    · subst hid
      simp [Memory.live, m.segment_erase_self]
    · have hne : id ≠ s := fun e => hid e.symm
      have := h.live_iff id
      simp only [Memory.live, m.segment_erase_ne (s :: m.free) hid, List.mem_cons, hne, false_or] at this ⊢
      exact this
  · intro id hid
    rcases List.mem_cons.1 hid with rfl | hid
    · exact hs.1
    · exact h.free_minted id hid
  · exact List.nodup_cons.2 ⟨hs.2, h.free_nodup⟩

theorem alloc_allocatorInv {c : Capacity} {m : Memory} {n : Nat} {r : Word × Memory} (h : m.allocatorInv)
    (ha : alloc c m n = .ok r) : r.2.allocatorInv := by
  obtain ⟨-, -, ⟨id, rest, hf, rfl⟩ | ⟨hf, hn, rfl⟩⟩ := alloc_cases ha
  · have hnodup : id ∉ rest ∧ rest.Nodup := by simpa [hf] using h.free_nodup
    have hid : id.toNat < m.nextId := h.free_minted id (by simp [hf])
    refine ⟨fun x => ?_, ?_, hnodup.2, h.nextId_le⟩
    · by_cases hx : id = x
      · subst hx
        simpa using ⟨hid, hnodup.1⟩
      · have hne : x ≠ id := fun e => hx e.symm
        have := h.live_iff x
        rw [Memory.live_setSegment_ne _ _ hx]
        change m.live x = true ↔ x.toNat < m.nextId ∧ x ∉ rest
        simpa [hf, hne] using this
    · intro x hx
      exact h.free_minted x (by simp [hf, show x ∈ rest from hx])
  · have hid : (BitVec.ofNat 64 m.nextId).toNat = m.nextId := by
      rw [BitVec.toNat_ofNat, Nat.mod_eq_of_lt hn]
    refine ⟨fun x => ?_, ?_, h.free_nodup, hn⟩
    · by_cases hx : BitVec.ofNat 64 m.nextId = x
      · subst hx
        simp [hf, Nat.mod_eq_of_lt (show m.nextId < 18446744073709551616 from hn)]
      · have hne : x.toNat ≠ m.nextId := fun e => hx (BitVec.eq_of_toNat_eq (by rw [hid, e]))
        have := h.live_iff x
        rw [Memory.live_setSegment_ne _ _ hx]
        have hlt : x.toNat < m.nextId + 1 ↔ x.toNat < m.nextId := by omega
        change m.live x = true ↔ x.toNat < m.nextId + 1 ∧ x ∉ m.free
        simpa [hf, hlt] using this
    · intro x hx
      exact Nat.lt_succ_of_lt (h.free_minted x hx)

end Sys2Proof.Machine
end

