-- ==== Sys2Proof/Laws/Codec.lean ====
section
/-! SUPPORT. The codec in arithmetic: a word's fields as quotients and remainders, and packed words as sums; round trips and the
boot image's byte order are then linear arithmetic. -/

namespace Sys2Proof

theorem opcodeBits_eq (w : InstrWord) : opcodeBits w = w.toNat / 2 ^ 28 := by
  have h : w.toNat < 2 ^ 32 := w.isLt
  simp only [opcodeBits, BitVec.extractLsb'_toNat, Nat.shiftRight_eq_div_pow]
  omega

theorem belowOpcode_eq (w : InstrWord) : belowOpcode w = w.toNat % 2 ^ 28 := by
  simp [belowOpcode]

theorem fieldRa_eq (w : InstrWord) : fieldRa w = w.toNat / 64 % 8 := by
  simp [fieldRa, Nat.shiftRight_eq_div_pow]

theorem fieldRb_eq (w : InstrWord) : fieldRb w = w.toNat / 8 % 8 := by
  simp [fieldRb, Nat.shiftRight_eq_div_pow]

theorem fieldRc_eq (w : InstrWord) : fieldRc w = w.toNat % 8 := by
  simp [fieldRc]

theorem fieldRd_eq (w : InstrWord) : fieldRd w = w.toNat / 2 ^ 25 % 8 := by
  simp [fieldRd, Nat.shiftRight_eq_div_pow]

theorem fieldImm_eq (w : InstrWord) : fieldImm w = w.toNat % 2 ^ 25 := by
  simp [fieldImm]

/-- The opcode field has four bits (R54). -/
theorem opcodeBits_lt (w : InstrWord) : opcodeBits w < 16 := (w.extractLsb' 28 4).isLt

theorem packThreeRegister_toNat {op ra rb rc : Nat} (ho : op < 16) (ha : ra < 8) (hb : rb < 8) (hc : rc < 8) :
    (packThreeRegister op ra rb rc).toNat = op * 2 ^ 28 + ra * 64 + rb * 8 + rc := by
  unfold packThreeRegister
  erw [BitVec.toNat_append, BitVec.toNat_append, BitVec.toNat_append, BitVec.toNat_append]
  simp only [BitVec.toNat_ofNat]
  rw [← Nat.shiftLeft_add_eq_or_of_lt (by omega), ← Nat.shiftLeft_add_eq_or_of_lt (by omega),
    ← Nat.shiftLeft_add_eq_or_of_lt (by omega), ← Nat.shiftLeft_add_eq_or_of_lt (by omega)]
  simp only [Nat.shiftLeft_eq]
  omega

theorem packImmediate_toNat {op rd imm : Nat} (ho : op < 16) (hd : rd < 8) (hi : imm < 2 ^ 25) :
    (packImmediate op rd imm).toNat = op * 2 ^ 28 + rd * 2 ^ 25 + imm := by
  unfold packImmediate
  erw [BitVec.toNat_append, BitVec.toNat_append]
  simp only [BitVec.toNat_ofNat]
  rw [← Nat.shiftLeft_add_eq_or_of_lt (by omega), ← Nat.shiftLeft_add_eq_or_of_lt (by omega)]
  simp only [Nat.shiftLeft_eq]
  omega

theorem packInvalid_toNat {op rest : Nat} (ho : op < 16) (hr : rest < 2 ^ 28) :
    (packInvalid op rest).toNat = op * 2 ^ 28 + rest := by
  unfold packInvalid
  erw [BitVec.toNat_append]
  simp only [BitVec.toNat_ofNat]
  rw [← Nat.shiftLeft_add_eq_or_of_lt (by omega)]
  simp only [Nat.shiftLeft_eq]
  omega

/-- The fields of a packed three-register word are what was packed (R66). -/
theorem packThreeRegister_fields {op ra rb rc : Nat} (ho : op < 16) (ha : ra < 8) (hb : rb < 8) (hc : rc < 8) :
    opcodeBits (packThreeRegister op ra rb rc) = op ∧ fieldRa (packThreeRegister op ra rb rc) = ra ∧
      fieldRb (packThreeRegister op ra rb rc) = rb ∧ fieldRc (packThreeRegister op ra rb rc) = rc := by
  rw [opcodeBits_eq, fieldRa_eq, fieldRb_eq, fieldRc_eq, packThreeRegister_toNat ho ha hb hc]
  omega

/-- The fields of a packed immediate-load word are what was packed (R66). -/
theorem packImmediate_fields {op rd imm : Nat} (ho : op < 16) (hd : rd < 8) (hi : imm < 2 ^ 25) :
    opcodeBits (packImmediate op rd imm) = op ∧ fieldRd (packImmediate op rd imm) = rd ∧
      fieldImm (packImmediate op rd imm) = imm := by
  rw [opcodeBits_eq, fieldRd_eq, fieldImm_eq, packImmediate_toNat ho hd hi]
  omega

/-- The opcode and the other bits of a packed invalid word are what was packed. -/
theorem packInvalid_fields {op rest : Nat} (ho : op < 16) (hr : rest < 2 ^ 28) :
    opcodeBits (packInvalid op rest) = op ∧ belowOpcode (packInvalid op rest) = rest := by
  rw [opcodeBits_eq, belowOpcode_eq, packInvalid_toNat ho hr]
  omega

/-- The three-register encoder on operands that fit (R64). -/
theorem encodeThreeRegister_of_fits {op ra rb rc : Nat} (ho : op ≤ 13) (ha : ra < 8) (hb : rb < 8) (hc : rc < 8) :
    encodeThreeRegister op ra rb rc = .ok (packThreeRegister op ra rb rc) :=
  if_pos ⟨Nat.lt_succ_of_le ho, ha, hb, hc⟩

/-- The immediate-load encoder on operands that fit (R65). -/
theorem encodeImmediate_of_fits {op rd value : Nat} (ho : op ≤ 13) (hd : rd < 8) (hv : value < 2 ^ 25) :
    encodeImmediate op rd value = .ok (packImmediate op rd value) :=
  if_pos ⟨Nat.lt_succ_of_le ho, hd, hv⟩

theorem wordOfBytes_toNat (b0 b1 b2 b3 : Byte) :
    (wordOfBytes b0 b1 b2 b3).toNat = b0.toNat * 2 ^ 24 + b1.toNat * 2 ^ 16 + b2.toNat * 2 ^ 8 + b3.toNat := by
  have h1 := b1.isLt
  have h2 := b2.isLt
  have h3 := b3.isLt
  unfold wordOfBytes
  erw [BitVec.toNat_append, BitVec.toNat_append, BitVec.toNat_append]
  rw [← Nat.shiftLeft_add_eq_or_of_lt h1, ← Nat.shiftLeft_add_eq_or_of_lt h2, ← Nat.shiftLeft_add_eq_or_of_lt h3]
  simp only [Nat.shiftLeft_eq]
  omega

/-- A word whose opcode field has a defined value decodes to that opcode with its operands (R63). -/
theorem decode_of_defined {w : InstrWord} {op : Opcode} (h : opcodeOfNumber (opcodeBits w) = .defined op) :
    decode w = op.operands w := by
  simp [decode, decodeOpcode, h]

/-- An instruction word is the low 32 bits of a cell (R53). -/
theorem instrWordOf_eq (cell : Word) : Machine.instrWordOf cell = BitVec.ofNat 32 cell.toNat := by
  apply BitVec.eq_of_toNat_eq
  simp [Machine.instrWordOf]

/-- A 32-bit word zero-extended into a cell is fetched as itself (R53, R113). -/
theorem instrWordOf_setWidth (w : InstrWord) : Machine.instrWordOf (w.setWidth 64) = w := by
  have h : w.toNat < 2 ^ 32 := w.isLt
  apply BitVec.eq_of_toNat_eq
  simp only [instrWordOf_eq, BitVec.toNat_ofNat, BitVec.toNat_setWidth]
  omega

end Sys2Proof
end

