-- ==== Sys2Proof/Laws/State.lean ====
section
/-! SUPPORT. One lemma per field per update of `State`, and the register file's read and write laws. -/

namespace Sys2Proof.Machine

variable (s : State) (r r' : Nat) (v : Word) (b : Byte) (w : Option InstrWord) (c : FaultCause)

/-! ## Writing a register -/

@[simp] theorem State.regWrite_pc : (s.regWrite r v).pc = s.pc := rfl
@[simp] theorem State.regWrite_run : (s.regWrite r v).run = s.run := rfl
@[simp] theorem State.regWrite_record : (s.regWrite r v).record = s.record := rfl
@[simp] theorem State.regWrite_mem : (s.regWrite r v).mem = s.mem := rfl
@[simp] theorem State.regWrite_output : (s.regWrite r v).output = s.output := rfl
@[simp] theorem State.regWrite_input : (s.regWrite r v).input = s.input := rfl
@[simp] theorem State.regWrite_parts : (s.regWrite r v).parts = s.parts := rfl
@[simp] theorem State.regWrite_storage : (s.regWrite r v).storage = s.storage := rfl
@[simp] theorem State.regWrite_capacity : (s.regWrite r v).capacity = s.capacity := rfl

/-- A register written reads as the value written (R30). -/
theorem State.reg_regWrite_self (h : r < Config.nregs) : (s.regWrite r v).reg r = v := by
  simp [State.reg, State.regWrite, h]

/-- A write leaves every other register alone. -/
theorem State.reg_regWrite_ne (h : r ≠ r') : (s.regWrite r v).reg r' = s.reg r' := by
  simp [State.reg, State.regWrite, Vector.getElem?_setIfInBounds_ne h]

/-- A register written is marked written (R30). -/
theorem State.isWritten_regWrite_self (h : r < Config.nregs) : (s.regWrite r v).isWritten r = true := by
  simp [State.isWritten, State.regWrite, h]

/-- A write leaves every other mark alone. -/
theorem State.isWritten_regWrite_ne (h : r ≠ r') : (s.regWrite r v).isWritten r' = s.isWritten r' := by
  simp [State.isWritten, State.regWrite, Vector.getElem?_setIfInBounds_ne h]

/-! ## The pc's advance -/

@[simp] theorem State.advance_regs : s.advance.regs = s.regs := rfl
@[simp] theorem State.advance_written : s.advance.written = s.written := rfl
@[simp] theorem State.advance_reg : s.advance.reg r = s.reg r := rfl
@[simp] theorem State.advance_isWritten : s.advance.isWritten r = s.isWritten r := rfl
@[simp] theorem State.advance_pc : s.advance.pc = s.pc + 1#64 := rfl
@[simp] theorem State.advance_run : s.advance.run = s.run := rfl
@[simp] theorem State.advance_record : s.advance.record = s.record := rfl
@[simp] theorem State.advance_mem : s.advance.mem = s.mem := rfl
@[simp] theorem State.advance_output : s.advance.output = s.output := rfl
@[simp] theorem State.advance_input : s.advance.input = s.input := rfl
@[simp] theorem State.advance_parts : s.advance.parts = s.parts := rfl
@[simp] theorem State.advance_storage : s.advance.storage = s.storage := rfl
@[simp] theorem State.advance_capacity : s.advance.capacity = s.capacity := rfl

/-! ## The output port -/

@[simp] theorem State.emit_regs : (s.emit b).regs = s.regs := rfl
@[simp] theorem State.emit_written : (s.emit b).written = s.written := rfl
@[simp] theorem State.emit_reg : (s.emit b).reg r = s.reg r := rfl
@[simp] theorem State.emit_isWritten : (s.emit b).isWritten r = s.isWritten r := rfl
@[simp] theorem State.emit_pc : (s.emit b).pc = s.pc := rfl
@[simp] theorem State.emit_run : (s.emit b).run = s.run := rfl
@[simp] theorem State.emit_record : (s.emit b).record = s.record := rfl
@[simp] theorem State.emit_mem : (s.emit b).mem = s.mem := rfl
@[simp] theorem State.emit_output : (s.emit b).output = s.output ++ [b] := rfl
@[simp] theorem State.emit_input : (s.emit b).input = s.input := rfl
@[simp] theorem State.emit_parts : (s.emit b).parts = s.parts := rfl
@[simp] theorem State.emit_storage : (s.emit b).storage = s.storage := rfl
@[simp] theorem State.emit_capacity : (s.emit b).capacity = s.capacity := rfl

/-! ## The fault entry -/

@[simp] theorem State.enterFault_regs : (s.enterFault w c).regs = s.regs := rfl
@[simp] theorem State.enterFault_written : (s.enterFault w c).written = s.written := rfl
@[simp] theorem State.enterFault_reg : (s.enterFault w c).reg r = s.reg r := rfl
@[simp] theorem State.enterFault_isWritten : (s.enterFault w c).isWritten r = s.isWritten r := rfl
@[simp] theorem State.enterFault_pc : (s.enterFault w c).pc = s.pc := rfl
@[simp] theorem State.enterFault_run : (s.enterFault w c).run = .faulted := rfl
@[simp] theorem State.enterFault_record :
    (s.enterFault w c).record = some { cause := c, pc := s.pc, word := w } := rfl
@[simp] theorem State.enterFault_mem : (s.enterFault w c).mem = s.mem := rfl
@[simp] theorem State.enterFault_output : (s.enterFault w c).output = s.output := rfl
@[simp] theorem State.enterFault_input : (s.enterFault w c).input = s.input := rfl
@[simp] theorem State.enterFault_parts : (s.enterFault w c).parts = s.parts := rfl
@[simp] theorem State.enterFault_storage : (s.enterFault w c).storage = s.storage := rfl
@[simp] theorem State.enterFault_capacity : (s.enterFault w c).capacity = s.capacity := rfl

/-! ## Record updates written out -/

@[simp] theorem State.mem_update_reg (m : Memory) : ({ s with mem := m } : State).reg r = s.reg r := rfl
@[simp] theorem State.mem_update_isWritten (m : Memory) : ({ s with mem := m } : State).isWritten r = s.isWritten r := rfl
@[simp] theorem State.jump_update_reg (m : Memory) (t : Word) :
    ({ s with mem := m, pc := t } : State).reg r = s.reg r := rfl
@[simp] theorem State.jump_update_isWritten (m : Memory) (t : Word) :
    ({ s with mem := m, pc := t } : State).isWritten r = s.isWritten r := rfl
@[simp] theorem State.run_update_reg (x : RunState) : ({ s with run := x } : State).reg r = s.reg r := rfl
@[simp] theorem State.run_update_isWritten (x : RunState) :
    ({ s with run := x } : State).isWritten r = s.isWritten r := rfl
@[simp] theorem State.input_update_reg (l : List InAnswer) : ({ s with input := l } : State).reg r = s.reg r := rfl
@[simp] theorem State.input_update_isWritten (l : List InAnswer) :
    ({ s with input := l } : State).isWritten r = s.isWritten r := rfl

/-- The fetch depends on memory and pc alone. -/
theorem State.fetchCell_congr {s t : State} (hm : s.mem = t.mem) (hp : s.pc = t.pc) : s.fetchCell = t.fetchCell := by
  simp [State.fetchCell, hm, hp]

/-- The fetched word depends on memory and pc alone. -/
theorem State.fetchedWord_congr {s t : State} (hm : s.mem = t.mem) (hp : s.pc = t.pc) :
    s.fetchedWord = t.fetchedWord := by
  simp [State.fetchedWord, State.fetchCell_congr hm hp]

end Sys2Proof.Machine
end

