-- ==== Sys2Proof/Laws/Operands.lean ====
section
/-! SUPPORT. What the operand checks, the register read, the ALU and the end of a meaning can answer, each said once. -/

namespace Sys2Proof.Machine

/-- The sequence of a check that answered and what follows. -/
@[simp] theorem except_ok_bind {α β : Type} (a : α) (f : α → Except FaultCause β) :
    ((Except.ok a : Except FaultCause α) >>= f) = f a := rfl

/-- The sequence of a check that failed. -/
@[simp] theorem except_error_bind {α β : Type} (c : FaultCause) (f : α → Except FaultCause β) :
    ((Except.error c : Except FaultCause α) >>= f) = .error c := rfl

/-- A sequence that answers has an answer in between. -/
theorem except_bind_eq_ok {α β : Type} {x : Except FaultCause α} {f : α → Except FaultCause β} {b : β}
    (h : (x >>= f) = .ok b) : ∃ a, x = .ok a ∧ f a = .ok b := by
  cases x with
  | error c => cases h
  | ok a => exact ⟨a, rfl, h⟩

@[simp] theorem except_pure_eq {α : Type} (a : α) : (pure a : Except FaultCause α) = .ok a := rfl

/-- The field check passes exactly when every register number is in the file (R19, R75). -/
theorem checkRegisters_ok_iff {rs : List Nat} : checkRegisters rs = .ok () ↔ ∀ r ∈ rs, r < Config.nregs := by
  induction rs with
  | nil => simp [checkRegisters]
  | cons r rest ih =>
    by_cases h : r < Config.nregs
    · simp only [checkRegisters, h, if_true, ih, List.forall_mem_cons, true_and]
    · simp [checkRegisters, h]

/-- A register read answers exactly for a written register (R18). -/
theorem regRead_ok_iff {s : State} {r : Nat} {v : Word} :
    regRead s r = .ok v ↔ s.isWritten r = true ∧ s.reg r = v := by
  unfold regRead
  by_cases h : s.isWritten r = true <;> simp [h]

/-- The read of a written register. -/
theorem regRead_of_written {s : State} {r : Nat} (h : s.isWritten r = true) : regRead s r = .ok (s.reg r) := by
  simp [regRead, h]

/-- The read of an unwritten register. -/
theorem regRead_of_unwritten {s : State} {r : Nat} (h : s.isWritten r = false) :
    regRead s r = .error (.unwrittenRegister r) := by
  simp [regRead, h]

@[simp] theorem complete_ok (s t : State) : complete s (.ok t) = .next t := rfl
@[simp] theorem complete_error (s : State) (c : FaultCause) :
    complete s (.error c) = .next (s.enterFault s.fetchedWord c) := rfl

/-- A meaning always answers a next state: that of all its effects, or the fault entry. -/
theorem complete_cases {s t : State} {r : Except FaultCause State} (h : complete s r = .next t) :
    (∃ c, r = .error c ∧ t = s.enterFault s.fetchedWord c) ∨ r = .ok t := by
  cases r with
  | ok u => exact .inr (by simpa using h)
  | error c => exact .inl ⟨c, rfl, by simpa using h.symm⟩

/-- The ALU's answers: every operation has its result, but for Div by zero (R81, R82). -/
theorem alu_ok_iff {op : AluOp} {b c v : Word} :
    alu op b c = .ok v ↔
      (op = .add ∧ b + c = v) ∨ (op = .mul ∧ b * c = v) ∨ (op = .div ∧ c ≠ 0#64 ∧ b / c = v) ∨
        (op = .nand ∧ ~~~(b &&& c) = v) := by
  cases op with
  | add => simp [alu]
  | mul => simp [alu]
  | div => by_cases h : c = 0#64 <;> simp [alu, isZero, h]
  | nand => simp [alu]

end Sys2Proof.Machine
end

