-- ==== Sys2Proof/Laws/Boot.lean ====
section
/-! SUPPORT. What the boot load leaves in the memory (R113). -/

namespace Sys2Proof.Machine

/-- A write of words keeps the memory canonical. -/
theorem writeWords_wf {ws : List InstrWord} {m m' : Memory} {k : Nat} (hm : m.wf) (h : writeWords m k ws = .ok m') : m'.wf := by
  induction ws generalizing m k with
  | nil => cases h; exact hm
  | cons w rest ih =>
    cases hw : memWrite .boot m 0#64 (BitVec.ofNat 64 k) (w.setWidth 64) with
    | error c =>
      rw [writeWords, hw] at h
      cases h
    | ok m1 =>
      rw [writeWords, hw] at h
      exact ih (memWrite_wf hm hw) h

/-- A write of words keeps the allocator's invariant. -/
theorem writeWords_allocatorInv {ws : List InstrWord} {m m' : Memory} {k : Nat} (hm : m.allocatorInv)
    (h : writeWords m k ws = .ok m') : m'.allocatorInv := by
  induction ws generalizing m k with
  | nil => cases h; exact hm
  | cons w rest ih =>
    cases hw : memWrite .boot m 0#64 (BitVec.ofNat 64 k) (w.setWidth 64) with
    | error c =>
      rw [writeWords, hw] at h
      cases h
    | ok m1 =>
      rw [writeWords, hw] at h
      exact ih (memWrite_allocatorInv hm hw) h

/-- A write of words touches the bookkeeping of no id. -/
theorem writeWords_bookkeeping {ws : List InstrWord} {m m' : Memory} {k : Nat} (h : writeWords m k ws = .ok m') :
    m'.free = m.free ∧ m'.nextId = m.nextId := by
  induction ws generalizing m k with
  | nil => cases h; exact ⟨rfl, rfl⟩
  | cons w rest ih =>
    cases hw : memWrite .boot m 0#64 (BitVec.ofNat 64 k) (w.setWidth 64) with
    | error c =>
      rw [writeWords, hw] at h
      cases h
    | ok m1 =>
      rw [writeWords, hw] at h
      obtain ⟨g, -, -, rfl⟩ := memWrite_ok_iff.1 hw
      have hrest := ih h
      exact hrest

/-- Words that fit segment 0 are written, each at its index, and nothing else changes. -/
theorem writeWords_spec (ws : List InstrWord) (m : Memory) (k : Nat) (g : Segment) (hg : m.segment 0#64 = some g)
    (hlen : k + ws.length ≤ g.length) (hlt : g.length < wordLimit) :
    ∃ m' g', writeWords m k ws = .ok m' ∧ m'.segment 0#64 = some g' ∧ g'.length = g.length ∧
      (∀ j w, ws[j]? = some w → g'.get (k + j) = w.setWidth 64) ∧
      (∀ i, i < k ∨ k + ws.length ≤ i → g'.get i = g.get i) ∧
      (∀ id, id ≠ 0#64 → m'.segment id = m.segment id) := by
  induction ws generalizing m k g with
  | nil => exact ⟨m, g, rfl, hg, rfl, by simp, by simp, by simp⟩
  | cons w rest ih =>
    simp only [List.length_cons] at hlen
    have hlt' : g.length < 2 ^ 64 := hlt
    have hk : (BitVec.ofNat 64 k).toNat = k := by
      rw [BitVec.toNat_ofNat, Nat.mod_eq_of_lt (show k < 2 ^ 64 from by omega)]
    have hwrite : memWrite .boot m 0#64 (BitVec.ofNat 64 k) (w.setWidth 64) =
        .ok (m.setSegment 0#64 (g.put k (w.setWidth 64))) := by
      simp only [memWrite, hg, hk, show k < g.length from by omega, if_true]
    obtain ⟨m', g', h, hg', hl', hin, hout, hother⟩ :=
      ih (m.setSegment 0#64 (g.put k (w.setWidth 64))) (k + 1) (g.put k (w.setWidth 64)) (by simp)
        (by simpa using (show k + 1 + rest.length ≤ g.length by omega)) (by simpa using hlt)
    refine ⟨m', g', by rw [writeWords, hwrite]; exact h, hg', by simpa using hl', ?_, ?_, ?_⟩
    · intro j x hx
      cases j with
      | zero =>
        simp only [List.getElem?_cons_zero, Option.some.injEq] at hx
        subst hx
        simpa using hout k (.inl (Nat.lt_succ_self k))
      | succ j =>
        have := hin j x (by simpa using hx)
        rwa [show k + 1 + j = k + (j + 1) by omega] at this
    · intro i hi
      simp only [List.length_cons] at hi
      rw [hout i (by omega), Segment.get_put_ne _ _ (by omega)]
    · intro id hid
      rw [hother id hid, Memory.segment_setSegment_ne _ _ (fun e => hid e.symm)]

/-- The boot load of an image that fits a memory as constructed makes segment 0 of the image's words (R113, R35). -/
theorem loadImage_constructed {c : Capacity} {blob : List Byte} (hn : (imageWords blob).length < wordLimit)
    (hc : c.admits Memory.constructed (imageWords blob).length = true) :
    ∃ m g, loadImage c Memory.constructed blob = .ok m ∧ m.segment 0#64 = some g ∧
      g.length = (imageWords blob).length ∧
      (∀ k w, (imageWords blob)[k]? = some w → g.get k = w.setWidth 64) ∧
      (∀ id, id ≠ 0#64 → m.segment id = none) ∧ m.free = [] ∧ m.nextId = 1 := by
  have halloc : alloc c Memory.constructed (imageWords blob).length =
      .ok (0#64, { Memory.constructed with nextId := 1 }.setSegment 0#64 (Segment.zeros (imageWords blob).length)) := by
    simp only [alloc, hn, hc, and_self, if_true]
    rfl
  obtain ⟨m, g, h, hg, hl, hin, -, hother⟩ :=
    writeWords_spec (imageWords blob)
      ({ Memory.constructed with nextId := 1 }.setSegment 0#64 (Segment.zeros (imageWords blob).length)) 0
      (Segment.zeros (imageWords blob).length) (by simp) (by simp) (by simpa using hn)
  have hb := writeWords_bookkeeping h
  refine ⟨m, g, ?_, hg, by simpa using hl, fun k w hw => by simpa using hin k w hw, fun id hid => ?_, hb.1, hb.2⟩
  · simp only [loadImage, halloc, except_ok_bind]
    exact h
  · rw [hother id hid, Memory.segment_setSegment_ne _ _ (fun e => hid e.symm)]
    rfl

/-- A boot load that answers keeps the memory canonical. -/
theorem loadImage_wf {c : Capacity} {m m' : Memory} {blob : List Byte} (hm : m.wf) (h : loadImage c m blob = .ok m') :
    m'.wf := by
  unfold loadImage at h
  cases ha : alloc c m (imageWords blob).length with
  | error c => rw [ha] at h; cases h
  | ok r =>
    rw [ha] at h
    exact writeWords_wf (alloc_wf hm ha) h

/-- A boot load that answers keeps the allocator's invariant. -/
theorem loadImage_allocatorInv {c : Capacity} {m m' : Memory} {blob : List Byte} (hm : m.allocatorInv)
    (h : loadImage c m blob = .ok m') : m'.allocatorInv := by
  unfold loadImage at h
  cases ha : alloc c m (imageWords blob).length with
  | error c => rw [ha] at h; cases h
  | ok r =>
    rw [ha] at h
    exact writeWords_allocatorInv (alloc_allocatorInv hm ha) h

/-- A boot load that answers has made an id, so `next_id` is not 0 after it in a memory whose pool was empty. -/
theorem loadImage_nextId {c : Capacity} {m m' : Memory} {blob : List Byte} (hf : m.free = [])
    (h : loadImage c m blob = .ok m') : m'.nextId = m.nextId + 1 := by
  unfold loadImage at h
  cases ha : alloc c m (imageWords blob).length with
  | error c => rw [ha] at h; cases h
  | ok r =>
    rw [ha] at h
    obtain ⟨-, -, ⟨id, rest, hf', -⟩ | ⟨-, -, rfl⟩⟩ := alloc_cases ha
    · rw [hf] at hf'
      cases hf'
    · rw [(writeWords_bookkeeping h).2]
      rfl

end Sys2Proof.Machine
end

