-- ==== Sys2Proof/Laws/Exec.lean ====
section
/-! SUPPORT. Once for all instructions: what an execution can do. `exec_cases` says that an instruction answers the fault entry or
exactly one of the completions of `Effect`; frames, invariants and whole-machine rules cite it instead of unfolding a meaning. -/

namespace Sys2Proof.Machine

/-- The completions of the instructions: `Effect i s t` when `i` completes from `s` in `t`, with the conditions under which it
does so. -/
inductive Effect : Instr → State → State → Prop where
  | cmovSkip {ra rb rc : Nat} {s : State} (hr : ∀ r ∈ [ra, rb, rc], r < Config.nregs)
      (hc : s.isWritten rc = true) (h : s.reg rc = 0#64) : Effect (.cmov ra rb rc) s s.advance
  | cmovMove {ra rb rc : Nat} {s : State} (hr : ∀ r ∈ [ra, rb, rc], r < Config.nregs)
      (hc : s.isWritten rc = true) (h : s.reg rc ≠ 0#64) (hb : s.isWritten rb = true) :
      Effect (.cmov ra rb rc) s (s.regWrite ra (s.reg rb)).advance
  | add {ra rb rc : Nat} {s : State} (hr : ∀ r ∈ [ra, rb, rc], r < Config.nregs)
      (hb : s.isWritten rb = true) (hc : s.isWritten rc = true) :
      Effect (.add ra rb rc) s (s.regWrite ra (s.reg rb + s.reg rc)).advance
  | mul {ra rb rc : Nat} {s : State} (hr : ∀ r ∈ [ra, rb, rc], r < Config.nregs)
      (hb : s.isWritten rb = true) (hc : s.isWritten rc = true) :
      Effect (.mul ra rb rc) s (s.regWrite ra (s.reg rb * s.reg rc)).advance
  | div {ra rb rc : Nat} {s : State} (hr : ∀ r ∈ [ra, rb, rc], r < Config.nregs)
      (hb : s.isWritten rb = true) (hc : s.isWritten rc = true) (h : s.reg rc ≠ 0#64) :
      Effect (.div ra rb rc) s (s.regWrite ra (s.reg rb / s.reg rc)).advance
  | nand {ra rb rc : Nat} {s : State} (hr : ∀ r ∈ [ra, rb, rc], r < Config.nregs)
      (hb : s.isWritten rb = true) (hc : s.isWritten rc = true) :
      Effect (.nand ra rb rc) s (s.regWrite ra (~~~(s.reg rb &&& s.reg rc))).advance
  | lv {rd imm : Nat} {s : State} (hr : ∀ r ∈ [rd], r < Config.nregs) :
      Effect (.lv rd imm) s (s.regWrite rd (immediateWord imm)).advance
  | load {ra rb rc : Nat} {s : State} {v : Word} (hr : ∀ r ∈ [ra, rb, rc], r < Config.nregs)
      (hb : s.isWritten rb = true) (hc : s.isWritten rc = true)
      (hv : memRead .load s.mem (loadAddress s rb rc).1 (loadAddress s rb rc).2 = .ok v) :
      Effect (.load ra rb rc) s (s.regWrite ra v).advance
  | store {ra rb rc : Nat} {s : State} {m : Memory} (hr : ∀ r ∈ [ra, rb, rc], r < Config.nregs)
      (ha : s.isWritten ra = true) (hb : s.isWritten rb = true) (hc : s.isWritten rc = true)
      (hm : memWrite .store s.mem (storeAddress s ra rb).1 (storeAddress s ra rb).2 (s.reg rc) = .ok m) :
      Effect (.store ra rb rc) s { s with mem := m }.advance
  | mapseg {rb rc : Nat} {s : State} {r : Word × Memory} (hr : ∀ r ∈ [rb, rc], r < Config.nregs)
      (hc : s.isWritten rc = true) (hm : alloc s.capacity s.mem (s.reg rc).toNat = .ok r) :
      Effect (.mapseg rb rc) s ({ s with mem := r.2 }.regWrite rb r.1).advance
  | unmapseg {rc : Nat} {s : State} {m : Memory} (hr : ∀ r ∈ [rc], r < Config.nregs)
      (hc : s.isWritten rc = true) (hm : release s.mem (s.reg rc) = .ok m) :
      Effect (.unmapseg rc) s { s with mem := m }.advance
  | halt {s : State} : Effect .halt s { s with run := .halted }
  | lp {rb rc : Nat} {s : State} {m : Memory} (hr : ∀ r ∈ [rb, rc], r < Config.nregs)
      (hb : s.isWritten rb = true) (hc : s.isWritten rc = true) (hm : loadProgram s (s.reg rb) = .ok m) :
      Effect (.lp rb rc) s { s with mem := m, pc := s.reg rc }
  | out {rc : Nat} {s : State} (hr : ∀ r ∈ [rc], r < Config.nregs) (hc : s.isWritten rc = true)
      (h : (s.reg rc).toNat ≤ 255) : Effect (.out rc) s (s.emit (byteOf (s.reg rc))).advance
  | inputWait {rc : Nat} {s : State} (hr : ∀ r ∈ [rc], r < Config.nregs) (h : s.input = []) :
      Effect (.input rc) s s
  | inputAnswer {rc : Nat} {s : State} {a : InAnswer} {rest : List InAnswer} (hr : ∀ r ∈ [rc], r < Config.nregs)
      (h : s.input = a :: rest) :
      Effect (.input rc) s ({ s with input := rest }.regWrite rc (answerWord a)).advance

theorem execCmov_cases {ra rb rc : Nat} {s t : State} (h : execCmov ra rb rc s = .next t) :
    (∃ c, t = s.enterFault s.fetchedWord c) ∨ Effect (.cmov ra rb rc) s t := by
  rcases complete_cases h with ⟨c, -, rfl⟩ | h
  · exact .inl ⟨c, rfl⟩
  obtain ⟨_, hr, h⟩ := except_bind_eq_ok h
  have hr := checkRegisters_ok_iff.1 hr
  obtain ⟨c, hc, h⟩ := except_bind_eq_ok h
  obtain ⟨wc, rfl⟩ := regRead_ok_iff.1 hc
  by_cases hz : s.reg rc = 0#64
  · simp only [isZero, hz, beq_self_eq_true, if_true, except_pure_eq, Except.ok.injEq] at h
    subst h
    exact .inr (.cmovSkip hr wc hz)
  · have hz' : isZero (s.reg rc) = false := by simp [isZero, hz]
    simp only [hz', Bool.false_eq_true, if_false] at h
    obtain ⟨b, hb, h⟩ := except_bind_eq_ok h
    obtain ⟨wb, rfl⟩ := regRead_ok_iff.1 hb
    cases h
    exact .inr (.cmovMove hr wc hz wb)

/-- What an ALU instruction can do (R81 to R87). -/
theorem aluInstruction_cases {op : AluOp} {ra rb rc : Nat} {s t : State} (h : aluInstruction op ra rb rc s = .next t) :
    (∃ c, t = s.enterFault s.fetchedWord c) ∨
      (∀ r ∈ [ra, rb, rc], r < Config.nregs) ∧ s.isWritten rb = true ∧ s.isWritten rc = true ∧
        ∃ v, alu op (s.reg rb) (s.reg rc) = .ok v ∧ t = (s.regWrite ra v).advance := by
  rcases complete_cases h with ⟨c, -, rfl⟩ | h
  · exact .inl ⟨c, rfl⟩
  obtain ⟨_, hr, h⟩ := except_bind_eq_ok h
  obtain ⟨b, hb, h⟩ := except_bind_eq_ok h
  obtain ⟨wb, rfl⟩ := regRead_ok_iff.1 hb
  obtain ⟨c, hc, h⟩ := except_bind_eq_ok h
  obtain ⟨wc, rfl⟩ := regRead_ok_iff.1 hc
  obtain ⟨v, hv, h⟩ := except_bind_eq_ok h
  cases h
  exact .inr ⟨checkRegisters_ok_iff.1 hr, wb, wc, v, hv, rfl⟩

theorem execAdd_cases {ra rb rc : Nat} {s t : State} (h : execAdd ra rb rc s = .next t) :
    (∃ c, t = s.enterFault s.fetchedWord c) ∨ Effect (.add ra rb rc) s t := by
  rcases aluInstruction_cases h with h | ⟨hr, hb, hc, v, hv, rfl⟩
  · exact .inl h
  · cases hv
    exact .inr (.add hr hb hc)

theorem execMul_cases {ra rb rc : Nat} {s t : State} (h : execMul ra rb rc s = .next t) :
    (∃ c, t = s.enterFault s.fetchedWord c) ∨ Effect (.mul ra rb rc) s t := by
  rcases aluInstruction_cases h with h | ⟨hr, hb, hc, v, hv, rfl⟩
  · exact .inl h
  · cases hv
    exact .inr (.mul hr hb hc)

theorem execDiv_cases {ra rb rc : Nat} {s t : State} (h : execDiv ra rb rc s = .next t) :
    (∃ c, t = s.enterFault s.fetchedWord c) ∨ Effect (.div ra rb rc) s t := by
  rcases aluInstruction_cases h with h | ⟨hr, hb, hc, v, hv, rfl⟩
  · exact .inl h
  · have := alu_ok_iff.1 hv
    simp only [reduceCtorEq, false_and, true_and, false_or, or_false] at this
    obtain ⟨hz, rfl⟩ := this
    exact .inr (.div hr hb hc hz)

theorem execNand_cases {ra rb rc : Nat} {s t : State} (h : execNand ra rb rc s = .next t) :
    (∃ c, t = s.enterFault s.fetchedWord c) ∨ Effect (.nand ra rb rc) s t := by
  rcases aluInstruction_cases h with h | ⟨hr, hb, hc, v, hv, rfl⟩
  · exact .inl h
  · cases hv
    exact .inr (.nand hr hb hc)

theorem execLv_cases {rd imm : Nat} {s t : State} (h : execLv rd imm s = .next t) :
    (∃ c, t = s.enterFault s.fetchedWord c) ∨ Effect (.lv rd imm) s t := by
  rcases complete_cases h with ⟨c, -, rfl⟩ | h
  · exact .inl ⟨c, rfl⟩
  obtain ⟨_, hr, h⟩ := except_bind_eq_ok h
  cases h
  exact .inr (.lv (checkRegisters_ok_iff.1 hr))

theorem execLoad_cases {ra rb rc : Nat} {s t : State} (h : execLoad ra rb rc s = .next t) :
    (∃ c, t = s.enterFault s.fetchedWord c) ∨ Effect (.load ra rb rc) s t := by
  rcases complete_cases h with ⟨c, -, rfl⟩ | h
  · exact .inl ⟨c, rfl⟩
  obtain ⟨_, hr, h⟩ := except_bind_eq_ok h
  obtain ⟨b, hb, h⟩ := except_bind_eq_ok h
  obtain ⟨c, hc, h⟩ := except_bind_eq_ok h
  obtain ⟨v, hv, h⟩ := except_bind_eq_ok h
  cases h
  exact .inr (.load (checkRegisters_ok_iff.1 hr) (regRead_ok_iff.1 hb).1 (regRead_ok_iff.1 hc).1 hv)

theorem execStore_cases {ra rb rc : Nat} {s t : State} (h : execStore ra rb rc s = .next t) :
    (∃ c, t = s.enterFault s.fetchedWord c) ∨ Effect (.store ra rb rc) s t := by
  rcases complete_cases h with ⟨c, -, rfl⟩ | h
  · exact .inl ⟨c, rfl⟩
  obtain ⟨_, hr, h⟩ := except_bind_eq_ok h
  obtain ⟨a, ha, h⟩ := except_bind_eq_ok h
  obtain ⟨b, hb, h⟩ := except_bind_eq_ok h
  obtain ⟨v, hv, h⟩ := except_bind_eq_ok h
  obtain ⟨wc, rfl⟩ := regRead_ok_iff.1 hv
  obtain ⟨m, hm, h⟩ := except_bind_eq_ok h
  cases h
  exact .inr (.store (checkRegisters_ok_iff.1 hr) (regRead_ok_iff.1 ha).1 (regRead_ok_iff.1 hb).1 wc hm)

theorem execMapseg_cases {rb rc : Nat} {s t : State} (h : execMapseg rb rc s = .next t) :
    (∃ c, t = s.enterFault s.fetchedWord c) ∨ Effect (.mapseg rb rc) s t := by
  rcases complete_cases h with ⟨c, -, rfl⟩ | h
  · exact .inl ⟨c, rfl⟩
  obtain ⟨_, hr, h⟩ := except_bind_eq_ok h
  obtain ⟨n, hn, h⟩ := except_bind_eq_ok h
  obtain ⟨wc, rfl⟩ := regRead_ok_iff.1 hn
  obtain ⟨r, hm, h⟩ := except_bind_eq_ok h
  cases h
  exact .inr (.mapseg (checkRegisters_ok_iff.1 hr) wc hm)

theorem execUnmapseg_cases {rc : Nat} {s t : State} (h : execUnmapseg rc s = .next t) :
    (∃ c, t = s.enterFault s.fetchedWord c) ∨ Effect (.unmapseg rc) s t := by
  rcases complete_cases h with ⟨c, -, rfl⟩ | h
  · exact .inl ⟨c, rfl⟩
  obtain ⟨_, hr, h⟩ := except_bind_eq_ok h
  obtain ⟨id, hid, h⟩ := except_bind_eq_ok h
  obtain ⟨wc, rfl⟩ := regRead_ok_iff.1 hid
  obtain ⟨m, hm, h⟩ := except_bind_eq_ok h
  cases h
  exact .inr (.unmapseg (checkRegisters_ok_iff.1 hr) wc hm)

theorem execHalt_cases {s t : State} (h : execHalt s = .next t) : Effect .halt s t := by
  cases h
  exact .halt

theorem execLp_cases {rb rc : Nat} {s t : State} (h : execLp rb rc s = .next t) :
    (∃ c, t = s.enterFault s.fetchedWord c) ∨ Effect (.lp rb rc) s t := by
  rcases complete_cases h with ⟨c, -, rfl⟩ | h
  · exact .inl ⟨c, rfl⟩
  obtain ⟨_, hr, h⟩ := except_bind_eq_ok h
  obtain ⟨b, hb, h⟩ := except_bind_eq_ok h
  obtain ⟨wb, rfl⟩ := regRead_ok_iff.1 hb
  obtain ⟨x, hx, h⟩ := except_bind_eq_ok h
  obtain ⟨wc, rfl⟩ := regRead_ok_iff.1 hx
  obtain ⟨m, hm, h⟩ := except_bind_eq_ok h
  cases h
  exact .inr (.lp (checkRegisters_ok_iff.1 hr) wb wc hm)

theorem execOut_cases {rc : Nat} {s t : State} (h : execOut rc s = .next t) :
    (∃ c, t = s.enterFault s.fetchedWord c) ∨ Effect (.out rc) s t := by
  rcases complete_cases h with ⟨c, -, rfl⟩ | h
  · exact .inl ⟨c, rfl⟩
  obtain ⟨_, hr, h⟩ := except_bind_eq_ok h
  obtain ⟨v, hv, h⟩ := except_bind_eq_ok h
  obtain ⟨wc, rfl⟩ := regRead_ok_iff.1 hv
  by_cases hx : exceedsByte (s.reg rc) = true
  · simp only [hx, if_true] at h
    cases h
  · simp only [hx, Bool.false_eq_true, if_false] at h
    cases h
    refine .inr (.out (checkRegisters_ok_iff.1 hr) wc ?_)
    simpa [exceedsByte] using hx

theorem execInput_cases {rc : Nat} {s t : State} (h : execInput rc s = .next t) :
    (∃ c, t = s.enterFault s.fetchedWord c) ∨ Effect (.input rc) s t := by
  rcases complete_cases h with ⟨c, -, rfl⟩ | h
  · exact .inl ⟨c, rfl⟩
  obtain ⟨_, hr, h⟩ := except_bind_eq_ok h
  have hr := checkRegisters_ok_iff.1 hr
  cases hi : s.input with
  | nil =>
    rw [hi] at h
    cases h
    exact .inr (.inputWait hr hi)
  | cons a rest =>
    rw [hi] at h
    cases h
    exact .inr (.inputAnswer hr hi)

/-- What any instruction can do: the fault entry, or its completion. -/
theorem exec_cases {i : Instr} {s t : State} (h : exec i s = .next t) :
    (∃ c, t = s.enterFault s.fetchedWord c) ∨ Effect i s t := by
  cases i with
  | cmov ra rb rc => exact execCmov_cases h
  | load ra rb rc => exact execLoad_cases h
  | store ra rb rc => exact execStore_cases h
  | add ra rb rc => exact execAdd_cases h
  | mul ra rb rc => exact execMul_cases h
  | div ra rb rc => exact execDiv_cases h
  | nand ra rb rc => exact execNand_cases h
  | halt => exact .inr (execHalt_cases h)
  | mapseg rb rc => exact execMapseg_cases h
  | unmapseg rc => exact execUnmapseg_cases h
  | out rc => exact execOut_cases h
  | input rc => exact execInput_cases h
  | lp rb rc => exact execLp_cases h
  | lv rd imm => exact execLv_cases h
  | invalid14 rest => exact .inl ⟨_, by cases h; rfl⟩
  | invalid15 rest => exact .inl ⟨_, by cases h; rfl⟩

/-- The memory of an instruction's completion: unchanged, or the result of one operation of the allocator. -/
theorem Effect.mem_cases {i : Instr} {s t : State} (h : Effect i s t) :
    t.mem = s.mem ∨
      (∃ ra rb rc, i = .store ra rb rc ∧
        memWrite .store s.mem (storeAddress s ra rb).1 (storeAddress s ra rb).2 (s.reg rc) = .ok t.mem) ∨
      (∃ rb rc id, i = .mapseg rb rc ∧ alloc s.capacity s.mem (s.reg rc).toNat = .ok (id, t.mem)) ∨
      (∃ rc, i = .unmapseg rc ∧ release s.mem (s.reg rc) = .ok t.mem) ∨
      (∃ rb rc, i = .lp rb rc ∧ s.reg rb ≠ 0#64 ∧ duplicate s.capacity s.mem (s.reg rb) 0#64 = .ok t.mem) := by
  cases h with
  | store hr ha hb hc hm => exact .inr (.inl ⟨_, _, _, rfl, hm⟩)
  | mapseg hr hc hm => exact .inr (.inr (.inl ⟨_, _, _, rfl, hm⟩))
  | unmapseg hr hc hm => exact .inr (.inr (.inr (.inl ⟨_, rfl, hm⟩)))
  | @lp rb rc _ m hr hb hc hm =>
    by_cases hz : s.reg rb = 0#64
    · simp only [loadProgram, isZero, hz, beq_self_eq_true, if_true, Except.ok.injEq] at hm
      exact .inl hm.symm
    · have hz' : isZero (s.reg rb) = false := by simp [isZero, hz]
      simp only [loadProgram, hz', Bool.false_eq_true, if_false] at hm
      exact .inr (.inr (.inr (.inr ⟨_, _, rfl, hz, hm⟩)))
  | _ => exact .inl rfl

/-- The run state of an instruction's completion. -/
theorem Effect.run_cases {i : Instr} {s t : State} (h : Effect i s t) :
    t.run = s.run ∨ (i = .halt ∧ t.run = .halted) := by
  cases h with
  | halt => exact .inr ⟨rfl, rfl⟩
  | _ => exact .inl rfl

/-- No completion touches the record, the parts, the storage or the capacity. -/
theorem Effect.frame {i : Instr} {s t : State} (h : Effect i s t) :
    t.record = s.record ∧ t.parts = s.parts ∧ t.storage = s.storage ∧ t.capacity = s.capacity := by
  cases h <;> exact ⟨rfl, rfl, rfl, rfl⟩

end Sys2Proof.Machine
end

