-- ==== Sys2Proof/Laws/PerInstr.lean ====
section
/-! SUPPORT. The family `OpcodeField` of per-instruction statements: the opcode field of the word a well-formed instruction
encodes to is the number the opcode table gives the instruction (R54, R60, R61), one lemma a constructor. -/

namespace Sys2Proof.Laws.OpcodeField

open Sys2Proof

/-- The encoding's opcode field is the table's number (R60). -/
def Statement (i : Instr) : Prop := i.wellFormed = true → opcodeBits (encode i) = i.opcodeNumber

/-- A well-formed instruction's register numbers are below 8 and its constant fits. -/
theorem bounds {i : Instr} (h : i.wellFormed = true) : (∀ r ∈ i.registers, r < 8) ∧ i.constantFits = true := by
  simpa [Instr.wellFormed] using h

theorem cmov (ra rb rc : Nat) : Statement (.cmov ra rb rc) := by
  intro h
  have hr := (bounds h).1
  simp only [Instr.registers, List.mem_cons, List.not_mem_nil, or_false, forall_eq_or_imp, forall_eq] at hr
  exact (packThreeRegister_fields (by decide) hr.1 hr.2.1 hr.2.2).1

theorem load (ra rb rc : Nat) : Statement (.load ra rb rc) := by
  intro h
  have hr := (bounds h).1
  simp only [Instr.registers, List.mem_cons, List.not_mem_nil, or_false, forall_eq_or_imp, forall_eq] at hr
  exact (packThreeRegister_fields (by decide) hr.1 hr.2.1 hr.2.2).1

theorem store (ra rb rc : Nat) : Statement (.store ra rb rc) := by
  intro h
  have hr := (bounds h).1
  simp only [Instr.registers, List.mem_cons, List.not_mem_nil, or_false, forall_eq_or_imp, forall_eq] at hr
  exact (packThreeRegister_fields (by decide) hr.1 hr.2.1 hr.2.2).1

theorem add (ra rb rc : Nat) : Statement (.add ra rb rc) := by
  intro h
  have hr := (bounds h).1
  simp only [Instr.registers, List.mem_cons, List.not_mem_nil, or_false, forall_eq_or_imp, forall_eq] at hr
  exact (packThreeRegister_fields (by decide) hr.1 hr.2.1 hr.2.2).1

theorem mul (ra rb rc : Nat) : Statement (.mul ra rb rc) := by
  intro h
  have hr := (bounds h).1
  simp only [Instr.registers, List.mem_cons, List.not_mem_nil, or_false, forall_eq_or_imp, forall_eq] at hr
  exact (packThreeRegister_fields (by decide) hr.1 hr.2.1 hr.2.2).1

theorem div (ra rb rc : Nat) : Statement (.div ra rb rc) := by
  intro h
  have hr := (bounds h).1
  simp only [Instr.registers, List.mem_cons, List.not_mem_nil, or_false, forall_eq_or_imp, forall_eq] at hr
  exact (packThreeRegister_fields (by decide) hr.1 hr.2.1 hr.2.2).1

theorem nand (ra rb rc : Nat) : Statement (.nand ra rb rc) := by
  intro h
  have hr := (bounds h).1
  simp only [Instr.registers, List.mem_cons, List.not_mem_nil, or_false, forall_eq_or_imp, forall_eq] at hr
  exact (packThreeRegister_fields (by decide) hr.1 hr.2.1 hr.2.2).1

theorem halt : Statement .halt := by
  intro _
  exact (packThreeRegister_fields (by decide) (by decide) (by decide) (by decide)).1

theorem mapseg (rb rc : Nat) : Statement (.mapseg rb rc) := by
  intro h
  have hr := (bounds h).1
  simp only [Instr.registers, List.mem_cons, List.not_mem_nil, or_false, forall_eq_or_imp, forall_eq] at hr
  exact (packThreeRegister_fields (by decide) (by decide) hr.1 hr.2).1

theorem unmapseg (rc : Nat) : Statement (.unmapseg rc) := by
  intro h
  have hr := (bounds h).1
  simp only [Instr.registers, List.mem_cons, List.not_mem_nil, or_false, forall_eq] at hr
  exact (packThreeRegister_fields (by decide) (by decide) (by decide) hr).1

theorem out (rc : Nat) : Statement (.out rc) := by
  intro h
  have hr := (bounds h).1
  simp only [Instr.registers, List.mem_cons, List.not_mem_nil, or_false, forall_eq] at hr
  exact (packThreeRegister_fields (by decide) (by decide) (by decide) hr).1

theorem input (rc : Nat) : Statement (.input rc) := by
  intro h
  have hr := (bounds h).1
  simp only [Instr.registers, List.mem_cons, List.not_mem_nil, or_false, forall_eq] at hr
  exact (packThreeRegister_fields (by decide) (by decide) (by decide) hr).1

theorem lp (rb rc : Nat) : Statement (.lp rb rc) := by
  intro h
  have hr := (bounds h).1
  simp only [Instr.registers, List.mem_cons, List.not_mem_nil, or_false, forall_eq_or_imp, forall_eq] at hr
  exact (packThreeRegister_fields (by decide) (by decide) hr.1 hr.2).1

theorem lv (rd imm : Nat) : Statement (.lv rd imm) := by
  intro h
  exact (packImmediate_fields (by decide) ((bounds h).1 rd (by simp [Instr.registers]))
    (of_decide_eq_true (bounds h).2)).1

theorem invalid14 (rest : Nat) : Statement (.invalid14 rest) := by
  intro h
  exact (packInvalid_fields (by decide) (of_decide_eq_true (bounds h).2)).1

theorem invalid15 (rest : Nat) : Statement (.invalid15 rest) := by
  intro h
  exact (packInvalid_fields (by decide) (of_decide_eq_true (bounds h).2)).1

end Sys2Proof.Laws.OpcodeField
end

