-- ==== Sys2Proof/Laws/Step.lean ====
section
/-! SUPPORT. What one step can do, said once over all run states; the invariants of the machine are small goals over it. -/

namespace Sys2Proof.Machine

/-- The self-test passes, or faults (R112). -/
theorem selfTest_cases {s t : State} (h : selfTest s = .next t) :
    (s.missingParts = [] ∧ t = { s with run := .tested }) ∨ t = s.enterFault none (.missingPart s.missingParts) := by
  unfold selfTest at h
  split at h
  · next hm =>
    cases h
    exact .inl ⟨hm, rfl⟩
  · cases h
    exact .inr rfl

/-- The boot load loads the image, or faults (R113). -/
theorem bootLoad_cases {s t : State} (h : bootLoad s = .next t) :
    (∃ blob m, s.storage[Config.bootDevice]? = some blob ∧ loadImage s.capacity s.mem blob = .ok m ∧
      t = { s with mem := m, pc := 0#64, run := .ready }) ∨ ∃ c, t = s.enterFault none c := by
  unfold bootLoad at h
  split at h
  · cases h
  · next blob hb =>
    split at h
    · next m hm =>
      cases h
      exact .inl ⟨blob, m, hb, hm, rfl⟩
    · next c _ =>
      cases h
      exact .inr ⟨c, rfl⟩

/-- What a step can do: a fault entry, a stage of the reset sequence, the start of the loop, an instruction's completion, or
nothing in a terminal state. -/
theorem step_cases {s t : State} (h : step s = .next t) :
    (∃ w c, s.run ≠ .ready ∧ s.run ≠ .halted ∧ s.run ≠ .faulted ∧ t = s.enterFault w c) ∨
    (s.run = .constructed ∧ s.missingParts = [] ∧ t = { s with run := .tested }) ∨
    (s.run = .tested ∧ ∃ blob m, s.storage[Config.bootDevice]? = some blob ∧ loadImage s.capacity s.mem blob = .ok m ∧
      t = { s with mem := m, pc := 0#64, run := .ready }) ∨
    (s.run = .ready ∧ t = { s with run := .running }) ∨
    (s.run = .running ∧ ∃ cell, s.fetchCell = .ok cell ∧ Effect (decode (instrWordOf cell)) s t) ∨
    ((s.run = .halted ∨ s.run = .faulted) ∧ t = s) := by
  unfold step at h
  cases hr : s.run with
  | constructed =>
    simp only [hr] at h
    rcases selfTest_cases h with ⟨hm, rfl⟩ | rfl
    · exact .inr (.inl ⟨rfl, hm, rfl⟩)
    · exact .inl ⟨_, _, by simp, by simp, by simp, rfl⟩
  | tested =>
    simp only [hr] at h
    rcases bootLoad_cases h with ⟨blob, m, hb, hm, rfl⟩ | ⟨c, rfl⟩
    · exact .inr (.inr (.inl ⟨rfl, blob, m, hb, hm, rfl⟩))
    · exact .inl ⟨_, _, by simp, by simp, by simp, rfl⟩
  | ready =>
    simp only [hr] at h
    cases h
    exact .inr (.inr (.inr (.inl ⟨rfl, rfl⟩)))
  | running =>
    simp only [hr] at h
    cases hf : s.fetchCell with
    | error c =>
      simp only [hf] at h
      cases h
      exact .inl ⟨_, _, by simp, by simp, by simp, rfl⟩
    | ok cell =>
      simp only [hf] at h
      rcases exec_cases h with ⟨c, rfl⟩ | he
      · exact .inl ⟨_, _, by simp, by simp, by simp, rfl⟩
      · exact .inr (.inr (.inr (.inr (.inl ⟨rfl, cell, rfl, he⟩))))
  | halted =>
    simp only [hr] at h
    cases h
    exact .inr (.inr (.inr (.inr (.inr ⟨.inl rfl, rfl⟩))))
  | faulted =>
    simp only [hr] at h
    cases h
    exact .inr (.inr (.inr (.inr (.inr ⟨.inr rfl, rfl⟩))))

end Sys2Proof.Machine
end

