-- ==== Sys2Proof/Laws/Text.lean ====
section
/-! SUPPORT. Decimal numbers of the assembly text: what the disassembler prints, the assembler reads back. -/

namespace Sys2Proof.Machine

/-- A decimal digit's character, as a natural: the digit counted from 48. -/
theorem digitChar_toNat {d : Nat} (h : d < 10) : d.digitChar.toNat = 48 + d := by
  interval_cases d <;> rfl

/-- The assembler's value of a decimal digit. -/
theorem digitValue_digitChar {d : Nat} (h : d < 10) : digitValue 10 d.digitChar = some d := by
  interval_cases d <;> rfl

/-- Digits read one after another: first the front, then the rest. -/
theorem digitsFrom_append (base acc : Nat) (l r : List Char) :
    digitsFrom base acc (l ++ r) = (digitsFrom base acc l).bind (fun n => digitsFrom base n r) := by
  induction l generalizing acc with
  | nil => rfl
  | cons c rest ih =>
    simp only [List.cons_append, digitsFrom]
    cases digitValue base c with
    | none => rfl
    | some d => exact ih _

/-- The decimal digits of a number read back as the number. -/
theorem digitsFrom_toDigits (n : Nat) : digitsFrom 10 0 (Nat.toDigits 10 n) = some n := by
  induction n using Nat.strongRecOn with
  | ind n ih =>
    by_cases h : n < 10
    · rw [Nat.toDigits_of_lt_base h, digitsFrom, digitValue_digitChar h]
      simp [digitsFrom]
    · rw [Nat.toDigits_of_base_le (by decide) (by omega), digitsFrom_append, ih (n / 10) (by omega)]
      simp only [Option.bind_some, digitsFrom, digitValue_digitChar (show n % 10 < 10 by omega)]
      congr 1
      omega

/-- No decimal digit is any of the characters the text is cut at. -/
theorem toDigits_isDigit {n : Nat} {c : Char} (h : c ∈ Nat.toDigits 10 n) : c.isDigit = true :=
  Nat.isDigit_of_mem_toDigits (by decide) (by decide) h

/-- `parseNumber` reads back what `Nat.repr` prints (R67, R69). -/
theorem parseNumber_repr (n : Nat) : parseNumber (Nat.repr n).toList = some n := by
  rw [Nat.repr_eq_ofList_toDigits, String.toList_ofList]
  have hd := digitsFrom_toDigits n
  have hx : 'x' ∉ Nat.toDigits 10 n := fun h => by simpa using toDigits_isDigit h
  match hl : Nat.toDigits 10 n with
  | [] => exact absurd hl Nat.toDigits_ne_nil
  | c :: rest =>
    rw [hl] at hd hx
    unfold parseNumber
    split
    · contradiction
    · rename_i heq
      simp only [List.cons.injEq] at heq
      rw [heq.2] at hx
      simp at hx
    · rename_i heq
      simp only [List.cons.injEq] at heq
      rw [← heq.1, ← heq.2]
      exact hd

end Sys2Proof.Machine
end

