-- ==== Sys2Proof/Tests/Slice0.lean ====
section
/-! SUPPORT. The model's own tests and witnesses. Expected values are the spec's: words from the encoding tables (30_encoding.md),
results from 95_test_vectors.md (its section is named where a test uses it). Every test is at most one step. A theorem
`witness_<Name>` shows states and operands that meet the hypotheses of the obligation `<Name>`, clause by clause, at a boundary
where the range has one. -/

namespace Sys2Proof.Tests

open Sys2Proof Sys2Proof.Machine

/-! ## Well-formedness refuses (R55, R56, R59, R61) -/

theorem test_wellFormed_accepts : (Instr.cmov 7 7 7).wellFormed = true ∧ (Instr.lv 7 33554431).wellFormed = true ∧
    (Instr.invalid14 268435455).wellFormed = true := by decide
theorem test_wellFormed_refuses_cmov : (Instr.cmov 8 0 0).wellFormed = false := by decide
theorem test_wellFormed_refuses_load : (Instr.load 0 8 0).wellFormed = false := by decide
theorem test_wellFormed_refuses_store : (Instr.store 0 0 8).wellFormed = false := by decide
theorem test_wellFormed_refuses_alu : (Instr.add 8 0 0).wellFormed = false ∧ (Instr.mul 0 8 0).wellFormed = false ∧
    (Instr.div 0 0 8).wellFormed = false ∧ (Instr.nand 8 8 8).wellFormed = false := by decide
theorem test_wellFormed_refuses_two_operand : (Instr.mapseg 8 0).wellFormed = false ∧ (Instr.lp 0 8).wellFormed = false := by
  decide
theorem test_wellFormed_refuses_one_operand : (Instr.unmapseg 8).wellFormed = false ∧ (Instr.out 8).wellFormed = false ∧
    (Instr.input 8).wellFormed = false := by decide
theorem test_wellFormed_refuses_lv_register : (Instr.lv 8 0).wellFormed = false := by decide
theorem test_wellFormed_refuses_lv_immediate : (Instr.lv 0 33554432).wellFormed = false := by decide
theorem test_wellFormed_refuses_invalid_rest : (Instr.invalid14 268435456).wellFormed = false ∧
    (Instr.invalid15 268435456).wellFormed = false := by decide

/-! ## Decoding: words written out from the encodings of R55 and R56 (opcode, unused or rd, ra, rb, rc or imm) -/

theorem test_decode_cmov : decode 0b0000_0000000000000000000_001_010_011#32 = .cmov 1 2 3 := by decide
theorem test_decode_load : decode 0b0001_0000000000000000000_101_010_011#32 = .load 5 2 3 := by decide
theorem test_decode_store : decode 0b0010_0000000000000000000_010_011_100#32 = .store 2 3 4 := by decide
theorem test_decode_add : decode 0b0011_1111111111111111111_011_010_001#32 = .add 3 2 1 := by decide
theorem test_decode_mul : decode 0b0100_0000000000000000000_001_110_011#32 = .mul 1 6 3 := by decide
theorem test_decode_div : decode 0b0101_0000000000000000000_011_001_111#32 = .div 3 1 7 := by decide
theorem test_decode_nand : decode 0b0110_0000000000000000000_100_000_010#32 = .nand 4 0 2 := by decide
theorem test_decode_halt : decode 0b0111_1010101010101010101_010_101_010#32 = .halt := by decide
theorem test_decode_mapseg : decode 0b1000_0000000000000000000_111_010_011#32 = .mapseg 2 3 := by decide
theorem test_decode_unmapseg : decode 0b1001_0000000000000000001_111_111_010#32 = .unmapseg 2 := by decide
theorem test_decode_out : decode 0b1010_0000000000000000000_000_000_001#32 = .out 1 := by decide
theorem test_decode_input : decode 0b1011_0000000000000000000_100_100_110#32 = .input 6 := by decide
theorem test_decode_lp : decode 0b1100_0000000000000000000_111_001_000#32 = .lp 1 0 := by decide
theorem test_decode_lv : decode 0b1101_110_1000000000000000000000101#32 = .lv 6 16777221 := by decide
theorem test_decode_invalid14 : decode 0b1110_0000000000000000000000000001#32 = .invalid14 1 := by decide
theorem test_decode_invalid15 : decode 0b1111_1000000000000000000000000000#32 = .invalid15 134217728 := by decide

/-- Section 2.1: the field decoders on the largest word. -/
theorem test_decode_fields : decodeThreeRegister 0xFFFFFFFF#32 = (7, 7, 7) ∧ decodeImmediate 0xFFFFFFFF#32 = (7, 33554431) ∧
    decodeThreeRegister 0xD0000005#32 = (0, 0, 5) ∧ decodeOpcode 0xE0000000#32 = .invalid := by decide

theorem test_decodeBytes : decodeBytes [0xD0#8, 0#8, 0#8, 5#8, 0x70#8] = .ok (.lv 0 5, [0x70#8]) ∧
    decodeBytes [0xD0#8, 0#8, 0#8] = .error .truncated := ⟨rfl, rfl⟩

/-- Section 2.1, the encoder's table. -/
theorem test_encoders : encodeThreeRegister 3 3 2 1 = .ok 0x300000D1#32 ∧ encodeThreeRegister 13 0 0 5 = .ok 0xD0000005#32 ∧
    encodeThreeRegister 14 0 0 0 = .error .invalidOperand ∧ encodeThreeRegister 3 8 0 0 = .error .invalidOperand ∧
    encodeImmediate 13 7 33554431 = .ok 0xDFFFFFFF#32 ∧ encodeImmediate 13 0 33554432 = .error .invalidOperand ∧
    encodeImmediate 13 8 0 = .error .invalidOperand := ⟨rfl, rfl, rfl, rfl, rfl, rfl, rfl⟩

theorem test_decodeTableWord : decodeTableWord 32 0xC0000007 = some (.lp 0 7) := by decide

/-- R53: a wide cell decodes by its low 32 bits. -/
theorem test_wide_cell : decode (instrWordOf 0x1234567870000000#64) = .halt := by decide

/-! ## Assembler text (R67 to R69) -/

theorem test_assembleLine_lv : assembleLine "lv r7, 0x1FFFFFF ; largest" = .ok 0xDFFFFFFF#32 := by rfl
theorem test_assembleLine_store : assembleLine "  store r2, r3, r4" = .ok 0x2000009C#32 := by rfl
theorem test_assembleLine_refuses : assembleLine "lv r0, 33554432" = .error .invalidOperand ∧
    assembleLine "add r1, r8, r2" = .error .badOperands ∧ assembleLine "sub r1, r1, r2" = .error .unknownMnemonic :=
  ⟨rfl, rfl, rfl⟩
theorem test_assemble_label : assemble ["lv r0, 0", "L: lv r7, L", "lp r0, r7"] =
    .ok [0xD0000000#32, 0xDE000001#32, 0xC0000007#32] := by rfl
theorem test_imageBytes : imageBytes [0xD0000005#32, 0x70000000#32] =
    [0xD0#8, 0#8, 0#8, 5#8, 0x70#8, 0#8, 0#8, 0#8] := by decide
theorem test_listing : listing [0xD0000005#32, 0x70000000#32] = ["0: lv r0, 5", "1: halt"] := by decide

/-! ## A small machine -/

/-- Segment 0 of four words, `w` the first; segment 1 of four words with 12345 at index 2; id 2 in the pool; id 3 the next to
mint. -/
def memoryWith (w : Word) : Memory where
  segs   := [(0, { length := 4, cells := [(0, w)] }), (1, { length := 4, cells := [(2, 12345#64)] })]
  free   := [2#64]
  nextId := 3

/-- That memory with `cmov r1, r2, r3` at index 0. -/
abbrev demoMemory : Memory := memoryWith 0x53#64

/-- A running machine over `demoMemory`: registers 0, 1, … hold the values, the others are unwritten. -/
def machine (values : List Word) : State :=
  { State.reset with
    regs    := Vector.ofFn (fun i : Fin 8 => values.getD i 0#64)
    written := Vector.ofFn (fun i : Fin 8 => decide (i.val < values.length))
    run     := .running
    mem     := demoMemory }

/-- The next state, when there is one. -/
def after (o : Host.Outcome State Fault Refusal) : Option State :=
  match o with
  | .next t => some t
  | .fault _ => none
  | .refused _ => none

/-- Register `r` and the pc of the next state. -/
def regAndPc (r : Nat) (o : Host.Outcome State Fault Refusal) : Option (Word × Word) := (after o).map (fun t => (t.reg r, t.pc))

/-- The cause of the fault taken. -/
def causeOf (o : Host.Outcome State Fault Refusal) : Option FaultCause := (after o).bind (fun t => t.record.map FaultRecord.cause)

/-- `2^64 - 1`. -/
def ones : Word := 0xFFFFFFFFFFFFFFFF#64

theorem demoMemory_wf : demoMemory.wf := by decide

theorem memoryWith_allocatorInv (w : Word) : (memoryWith w).allocatorInv where
  live_iff := by
    intro id
    have h : (memoryWith w).live id = true ↔ id.toNat = 0 ∨ id.toNat = 1 := by
      simp only [Memory.live, Memory.segment, memoryWith, assocFind]
      split
      · simp; omega
      · split
        · simp; omega
        · simp; omega
    rw [h]
    have e : id ∈ (memoryWith w).free ↔ id.toNat = 2 := by
      simp [memoryWith, BitVec.toNat_eq]
    rw [e]
    simp only [memoryWith]
    omega
  free_minted := by simp [memoryWith]
  free_nodup := by simp [memoryWith]
  nextId_le := by simp [memoryWith, wordLimit]

theorem machine_inv (values : List Word) : (machine values).Inv where
  memory_canonical := demoMemory_wf
  allocator := memoryWith_allocatorInv _
  record_iff := by simp [machine, State.reset]
  before_boot := by simp [machine]
  parts_present := by simp [machine]
  program_minted := by simp [machine, memoryWith]

/-! ## One step an instruction (95_test_vectors.md 2.2 to 2.5) -/

theorem test_add_wraps : regAndPc 1 (exec (.add 1 2 3) (machine [0#64, 5#64, ones, 2#64])) = some (1#64, 1#64) := by decide
theorem test_add_same_register : regAndPc 1 (exec (.add 1 1 1) (machine [0#64, 0x8000000000000001#64])) = some (2#64, 1#64) := by
  decide
theorem test_mul_high_half_lost :
    regAndPc 1 (exec (.mul 1 2 3) (machine [0#64, 5#64, ones, 3#64])) = some (0xFFFFFFFFFFFFFFFD#64, 1#64) := by decide
theorem test_mul_wraps_to_zero :
    regAndPc 1 (exec (.mul 1 2 3) (machine [0#64, 5#64, 0x100000000#64, 0x100000000#64])) = some (0#64, 1#64) := by decide
theorem test_div_unsigned :
    regAndPc 1 (exec (.div 1 2 3) (machine [0#64, 5#64, ones, 2#64])) = some (0x7FFFFFFFFFFFFFFF#64, 1#64) := by decide
theorem test_div_by_zero : regAndPc 1 (exec (.div 1 2 3) (machine [0#64, 5#64, 7#64, 0#64])) = some (5#64, 0#64) ∧
    causeOf (exec (.div 1 2 3) (machine [0#64, 5#64, 7#64, 0#64])) = some (.divideByZero 7#64) := by decide
theorem test_nand : regAndPc 1 (exec (.nand 1 2 3) (machine [0#64, 5#64, 0xF0F0#64, 0xFF00#64])) =
    some (0xFFFFFFFFFFFF0FFF#64, 1#64) := by decide
theorem test_cmov_moves : regAndPc 3 (exec (.cmov 3 2 3) (machine [0#64, 0#64, 7#64, 4#64])) = some (7#64, 1#64) := by decide
theorem test_cmov_false_reads_no_rb :
    (after (exec (.cmov 1 6 0) (machine [0#64, 5#64]))).map (fun t => (t.reg 1, t.pc, t.run)) = some (5#64, 1#64, .running) := by
  decide
theorem test_lv_zero_extends : regAndPc 7 (exec (.lv 7 33554431)
    (machine [0#64, 0#64, 0#64, 0#64, 0#64, 0#64, 0#64, ones])) = some (0x1FFFFFF#64, 1#64) := by decide
theorem test_load : regAndPc 1 (exec (.load 1 2 3) (machine [0#64, 5#64, 1#64, 2#64])) = some (12345#64, 1#64) := by decide
theorem test_load_past_end : causeOf (exec (.load 1 2 3) (machine [0#64, 5#64, 1#64, 4#64])) =
    some (.outOfBounds 1#64 (some 4#64) .pastEnd .load) := by decide
theorem test_store : (after (exec (.store 2 3 4) (machine [0#64, 0#64, 1#64, 2#64, ones]))).map (fun t => t.mem) =
    some { demoMemory with segs := [(0, { length := 4, cells := [(0, 0x53#64)] }), (1, { length := 4, cells := [(2, ones)] })] } :=
  by decide
theorem test_store_not_live : causeOf (exec (.store 2 3 4) (machine [0#64, 0#64, 2#64, 2#64, 9#64])) =
    some (.outOfBounds 2#64 (some 2#64) .notLive .store) := by decide
theorem test_mapseg_length_read_first : (after (exec (.mapseg 1 1) (machine [0#64, 4#64]))).map
    (fun t => (t.reg 1, t.mem.lengthOf 2#64, t.mem.free)) = some (2#64, some 4, []) := by decide
theorem test_mapseg_mints : (after (exec (.mapseg 2 1)
    { machine [0#64, 4#64] with mem := { demoMemory with free := [], nextId := 5 } })).map
    (fun t => (t.reg 2, t.mem.nextId)) = some (5#64, 6) := by decide
theorem test_unmapseg : (after (exec (.unmapseg 2) (machine [0#64, 0#64, 1#64]))).map
    (fun t => (t.mem.live 1#64, t.mem.free, t.reg 2)) = some (false, [1#64, 2#64], 1#64) := by decide
theorem test_unmapseg_not_live : causeOf (exec (.unmapseg 2) (machine [0#64, 0#64, 9#64])) = some (.invalidRelease 9#64) := by
  decide
theorem test_halt : (after (exec .halt (machine []))).map (fun t => (t.run, t.pc)) = some (.halted, 0#64) := by decide
theorem test_lp_jumps : (after (exec (.lp 0 7) (machine [0#64, 0#64, 0#64, 0#64, 0#64, 0#64, 0#64, 4#64]))).map
    (fun t => (t.pc, t.mem)) = some (4#64, demoMemory) := by decide
theorem test_lp_copies : (after (exec (.lp 1 0) (machine [2#64, 1#64]))).map
    (fun t => (t.pc, t.mem.segment 0#64, t.mem.segment 1#64)) =
    some (2#64, some { length := 4, cells := [(2, 12345#64)] }, some { length := 4, cells := [(2, 12345#64)] }) := by decide
theorem test_out : (after (exec (.out 1) (machine [0#64, 255#64]))).map (fun t => t.output) = some [255#8] := by decide
theorem test_out_range : causeOf (exec (.out 1) (machine [0#64, 256#64])) = some (.outputRange 256#64) := by decide
theorem test_input_byte : regAndPc 1 (exec (.input 1) { machine [] with input := [.byte 255#8] }) = some (255#64, 1#64) := by
  decide
theorem test_input_eof : regAndPc 1 (exec (.input 1) { machine [] with input := [.eof, .byte 65#8] }) = some (ones, 1#64) := by
  decide
theorem test_invalid14 : causeOf (exec (.invalid14 5) (machine [])) = some (.invalidOpcode 0xE0000005#32) := by decide
theorem test_invalid15 : causeOf (exec (.invalid15 268435455) (machine [])) = some (.invalidOpcode 0xFFFFFFFF#32) := by decide

/-- Section 2.2: all unwritten, `add` reports `rb`. -/
theorem test_unwritten_rb_first : causeOf (exec (.add 1 2 3) (machine [])) = some (.unwrittenRegister 2) := by decide

/-! ## The step -/

/-- The first instruction after reset, as the host asks it. -/
theorem test_step_runs_fetched_word : regAndPc 0 (step (State.reset.withFetchWord 32 0xD0000005)) = some (5#64, 1#64) := by decide
theorem test_step_fetch_record : (after (step { machine [] with pc := 4#64 })).map (fun t => (t.run, t.record, t.pc)) =
    some (.faulted, some { cause := .outOfBounds 0#64 (some 4#64) .pastEnd .fetch, pc := 4#64, word := none }, 4#64) := by decide
theorem test_step_fault_record : (after (step (machine [0#64, 0#64, 0#64, 1#64, 0#64]
    |>.withFetchWord 32 0x50000120))).map (fun t => t.record) =
    some (some { cause := .divideByZero 0#64, pc := 0#64, word := some 0x50000120#32 }) := by decide

/-- S7's image, its boot load. -/
theorem test_boot_load : (after (step { State.construct State.reset.parts
    [[0xD0#8, 0#8, 0#8, 5#8, 0x70#8, 0#8, 0#8, 0#8, 1#8]] [] .unlimited false with run := .tested })).map
    (fun t => (t.run, t.pc, t.mem)) = some (.ready, 0#64,
      { segs := [(0, { length := 2, cells := [(0, 0xD0000005#64), (1, 0x70000000#64)] })], free := [], nextId := 1 }) := by decide

/-! ## Witnesses: every hypothesis of every obligation is met -/

/-- A machine just constructed with a Processing Unit, a Memory and the given storage. -/
def built (storage : List (List Byte)) (capacity : Capacity) : State :=
  State.construct State.reset.parts storage [] capacity false

theorem witness_SelfTestReportsEveryMissingPart_passes :
    (built [[]] .unlimited).run = .constructed ∧ (built [[]] .unlimited).parts.processingUnit = true ∧
    (built [[]] .unlimited).parts.memory = true ∧ (built [[]] .unlimited).storage ≠ [] ∧
    ((built [[]] .unlimited).parts.gpuConfigured = true → (built [[]] .unlimited).parts.gpu = true) := by decide

/-- A GPU configured and absent, and no storage. -/
theorem witness_SelfTestReportsEveryMissingPart_fails :
    let s := State.construct { processingUnit := true, memory := true, gpu := false, gpuConfigured := true } [] [] .unlimited false
    s.run = .constructed ∧ ¬ (s.parts.processingUnit = true ∧ s.parts.memory = true ∧ s.storage ≠ [] ∧
      (s.parts.gpuConfigured = true → s.parts.gpu = true)) ∧ s.missingParts = [.gpu, .storage] := by decide

theorem witness_BootImageIsBigEndianWords :
    let blob : List Byte := [1#8, 2#8, 3#8, 4#8, 5#8, 6#8, 7#8, 8#8, 9#8]
    blob[4 * 1]? = some 5#8 ∧ blob[4 * 1 + 1]? = some 6#8 ∧ blob[4 * 1 + 2]? = some 7#8 ∧ blob[4 * 1 + 3]? = some 8#8 ∧
      imageWords blob = [0x01020304#32, 0x05060708#32] := by decide

/-- The image fills a capacity of two words exactly. -/
theorem witness_ResetSequenceReachesTheFirstInstruction :
    let blob : List Byte := [0xD0#8, 0#8, 0#8, 5#8, 0x70#8, 0#8, 0#8, 0#8]
    State.reset.parts.processingUnit = true ∧ State.reset.parts.memory = true ∧
      (State.reset.parts.gpuConfigured = true → State.reset.parts.gpu = true) ∧ blob.length / 4 < 2 ^ 64 ∧
      (Capacity.totalWords 2).admits Memory.constructed (blob.length / 4) = true ∧
      (imageWords blob)[1]? = some 0x70000000#32 := by decide

theorem witness_BootImageThatDoesNotFitFaults :
    let s := { built [[1#8, 2#8, 3#8, 4#8, 5#8, 6#8, 7#8, 8#8]] (.totalWords 1) with run := .tested }
    s.run = .tested ∧ s.storage = [1#8, 2#8, 3#8, 4#8, 5#8, 6#8, 7#8, 8#8] :: [] ∧ s.mem = Memory.constructed ∧
      s.capacity.admits s.mem (8 / 4) = false := by decide

theorem witness_LoopStartOnlyMovesTheRunState : State.reset.run = .ready := by decide

theorem witness_StepExecutesTheFetchedInstruction :
    (machine []).run = .running ∧ memRead .fetch (machine []).mem 0#64 (machine []).pc = .ok 0x53#64 ∧
      decode (BitVec.ofNat 32 (0x53#64 : Word).toNat) = .cmov 1 2 3 ∧ (Instr.cmov 1 2 3).wellFormed = true :=
  ⟨rfl, rfl, rfl, rfl⟩

/-- The memory after segment 0 was released. -/
def noProgram : Memory := { segs := [(1, { length := 4, cells := [] })], free := [0#64], nextId := 2 }

theorem witness_FetchOutsideTheProgramFaults :
    ({ machine [] with mem := noProgram } : State).run = .running ∧ noProgram.live 0#64 = false ∧
      ({ machine [] with pc := 4#64 } : State).run = .running ∧ demoMemory.lengthOf 0#64 = some 4 ∧ 4 ≤ (4#64 : Word).toNat := by
  decide

theorem witness_TerminalStatesStay : ({ machine [] with run := .halted } : State).run = .halted := rfl

theorem witness_RunStateFollowsTheStateMachine : ∃ t, step State.reset = .next t ∧ t.run = .running := ⟨_, rfl, rfl⟩

theorem witness_OnlyHaltHalts :
    ∃ t, step ((machine []).withFetchWord 32 0x7FFFFFFF) = .next t ∧ t.run = .halted ∧
      ((machine []).withFetchWord 32 0x7FFFFFFF).run = .running := ⟨_, rfl, rfl, rfl⟩

/-- The invariant holds in a running machine with two segments and a released id, far from reset. -/
theorem witness_StepAlwaysAnswersANextState : (machine [5#64]).Inv := machine_inv _

/-- Each clause: moved, not moved, the condition unwritten, the source unwritten. -/
theorem witness_CmovMovesWhenTheConditionHolds :
    fieldAt 0x0FFFFFFF#32 31 28 = 0 ∧
    (let s := machine [1#64, 9#64]; s.isWritten 0 = true ∧ s.reg 0 ≠ 0#64 ∧ s.isWritten 1 = true) ∧
    (let s := machine [0#64]; s.isWritten 0 = true ∧ s.reg 0 = 0#64) ∧ (machine []).isWritten 7 = false ∧
    (let s := machine [1#64]; s.isWritten 0 = true ∧ s.reg 0 ≠ 0#64 ∧ s.isWritten 7 = false) := by decide

/-- Both operands written; the first unwritten; the second unwritten. Register 7 is the largest number. -/
theorem witness_AddWritesTheSumModuloTheWord :
    fieldAt 0x300000D1#32 31 28 = 3 ∧
    (let s := machine [0#64, 0#64, ones, 2#64]; s.isWritten 2 = true ∧ s.isWritten 3 = true) ∧ (machine []).isWritten 7 = false ∧
    (let s := machine [0#64]; s.isWritten 0 = true ∧ s.isWritten 7 = false) := by decide

theorem witness_MulWritesTheProductModuloTheWord :
    fieldAt 0x40000053#32 31 28 = 4 ∧
    (let s := machine [0#64, 0#64, ones, ones]; s.isWritten 2 = true ∧ s.isWritten 3 = true) ∧ (machine []).isWritten 7 = false ∧
    (let s := machine [0#64]; s.isWritten 0 = true ∧ s.isWritten 7 = false) := by decide

/-- The divisor 1 and the divisor 0. -/
theorem witness_DivWritesTheUnsignedQuotient :
    fieldAt 0x500000CB#32 31 28 = 5 ∧
    (let s := machine [ones, 1#64]; s.isWritten 0 = true ∧ s.isWritten 1 = true ∧ (s.reg 1).toNat ≠ 0) ∧
    (let s := machine [ones, 0#64]; s.isWritten 0 = true ∧ s.isWritten 1 = true ∧ (s.reg 1).toNat = 0) ∧
    (machine []).isWritten 7 = false ∧ (let s := machine [0#64]; s.isWritten 0 = true ∧ s.isWritten 7 = false) := by decide

theorem witness_NandWritesTheComplementOfTheConjunction :
    fieldAt 0x60000053#32 31 28 = 6 ∧
    (let s := machine [0#64, 0#64]; s.isWritten 0 = true ∧ s.isWritten 1 = true) ∧ (machine []).isWritten 7 = false ∧
    (let s := machine [0#64]; s.isWritten 0 = true ∧ s.isWritten 7 = false) := by decide

theorem witness_LvWritesTheZeroExtendedImmediate : fieldAt 0xDFFFFFFF#32 31 28 = 13 ∧ 7 < 8 ∧ 33554431 < 2 ^ 25 := by decide

/-- The last index, the first index past the end, a segment that is not live, and the unwritten registers. -/
theorem witness_LoadReadsTheAddressedWord :
    fieldAt 0x10000153#32 31 28 = 1 ∧
    (let s := machine [1#64, 3#64]
     s.isWritten 0 = true ∧ s.isWritten 1 = true ∧ s.mem.segment (s.reg 0) = some { length := 4, cells := [(2, 12345#64)] } ∧
       (s.reg 1).toNat < 4) ∧
    (let s := machine [1#64, 4#64]
     s.mem.segment (s.reg 0) = some { length := 4, cells := [(2, 12345#64)] } ∧ 4 ≤ (s.reg 1).toNat) ∧
    (let s := machine [2#64, 0#64]; s.isWritten 0 = true ∧ s.isWritten 1 = true ∧ s.mem.live (s.reg 0) = false) ∧
    (machine []).isWritten 7 = false ∧ (let s := machine [0#64]; s.isWritten 0 = true ∧ s.isWritten 7 = false) := by decide

theorem witness_StoreWritesTheAddressedWord :
    fieldAt 0x2000009C#32 31 28 = 2 ∧
    (let s := machine [1#64, 3#64, ones]
     s.isWritten 0 = true ∧ s.isWritten 1 = true ∧ s.isWritten 2 = true ∧ s.mem.lengthOf (s.reg 0) = some 4 ∧
       (s.reg 1).toNat < 4) ∧
    (let s := machine [1#64, 4#64, ones]; s.mem.lengthOf (s.reg 0) = some 4 ∧ 4 ≤ (s.reg 1).toNat) ∧
    (let s := machine [2#64, 0#64, ones]; s.isWritten 2 = true ∧ s.mem.live (s.reg 0) = false) ∧
    (machine []).isWritten 7 = false ∧ (let s := machine [0#64]; s.isWritten 0 = true ∧ s.isWritten 7 = false) ∧
    (let s := machine [0#64, 0#64]; s.isWritten 0 = true ∧ s.isWritten 1 = true ∧ s.isWritten 7 = false) := by decide

/-- The pool's top, the next id when the pool is empty (the last one there is), no id left, no capacity, and an unwritten length. -/
theorem witness_MapsegAllocatesAZeroedSegment :
    fieldAt 0x80000013#32 31 28 = 8 ∧
    (let s := machine [0#64]
     s.isWritten 0 = true ∧ s.capacity.admits s.mem (s.reg 0).toNat = true ∧ s.mem.free = 2#64 :: [] ∧
       s.mem.live 0#64 = true) ∧
    (let m : Memory := { demoMemory with free := [], nextId := 2 ^ 64 - 1 }
     m.free = [] ∧ m.nextId < 2 ^ 64 ∧ ones = BitVec.ofNat 64 m.nextId) ∧
    (let m : Memory := { demoMemory with free := [], nextId := 2 ^ 64 }
     m.free = [] ∧ m.nextId = 2 ^ 64 ∧ Capacity.unlimited.admits m 0 = true) ∧
    (let s := { machine [1#64] with capacity := .totalWords 8 }
     s.isWritten 0 = true ∧ s.capacity.admits s.mem (s.reg 0).toNat = false) ∧ (machine []).isWritten 7 = false := by decide

theorem witness_MapsegAllocatesAZeroedSegment_inv : (machine [0#64]).Inv := machine_inv _

theorem witness_UnmapsegReleasesALiveSegment :
    fieldAt 0x90000002#32 31 28 = 9 ∧
    (let s := machine [1#64]; s.isWritten 0 = true ∧ s.mem.live (s.reg 0) = true) ∧
    (let s := machine [2#64]; s.isWritten 0 = true ∧ s.mem.live (s.reg 0) = false) ∧ (machine []).isWritten 7 = false := by decide

theorem witness_HaltHalts : fieldAt 0x7FFFFFFF#32 31 28 = 7 := by decide

/-- Jump only; a source that is not live; segment 0 not live; a copy that does not fit; a copy that fits exactly. -/
theorem witness_LpLoadsAProgramAndJumps :
    fieldAt 0xC0000008#32 31 28 = 12 ∧
    (let s := machine [0#64, ones]; s.isWritten 0 = true ∧ s.isWritten 1 = true ∧ s.reg 0 = 0#64) ∧
    (let s := machine [2#64, 0#64]; s.reg 0 ≠ 0#64 ∧ s.mem.live (s.reg 0) = false) ∧
    (let s := { machine [1#64, 0#64] with mem := noProgram }
     s.reg 0 ≠ 0#64 ∧ s.mem.lengthOf (s.reg 0) = some 4 ∧ s.mem.live 0#64 = false) ∧
    (let s := { machine [1#64, 0#64] with capacity := .totalWords 11 }
     s.reg 0 ≠ 0#64 ∧ s.mem.lengthOf (s.reg 0) = some 4 ∧ s.mem.live 0#64 = true ∧ s.capacity.admits s.mem 4 = false) ∧
    (let s := { machine [1#64, 0#64] with capacity := .totalWords 12 }
     s.reg 0 ≠ 0#64 ∧ s.mem.lengthOf (s.reg 0) = some 4 ∧ s.mem.live 0#64 = true ∧ s.capacity.admits s.mem 4 = true) ∧
    (machine []).isWritten 7 = false ∧ (let s := machine [0#64]; s.isWritten 0 = true ∧ s.isWritten 7 = false) := by decide

theorem witness_InvalidOpcodesFault : fieldAt 0xE0000000#32 31 28 = 14 ∧ fieldAt 0xFFFFFFFF#32 31 28 = 15 := by decide

/-- 255, 256, and an unwritten register. -/
theorem witness_OutEmitsOneByte :
    fieldAt 0xA0000001#32 31 28 = 10 ∧
    (let s := machine [255#64]; s.isWritten 0 = true ∧ (s.reg 0).toNat ≤ 255) ∧
    (let s := machine [256#64]; s.isWritten 0 = true ∧ 255 < (s.reg 0).toNat) ∧ (machine []).isWritten 7 = false := by decide

theorem witness_InReceivesAByteOrTheSentinel :
    fieldAt 0xB0000001#32 31 28 = 11 ∧ ({ machine [] with input := [.byte 255#8] } : State).input = .byte 255#8 :: [] ∧
      ({ machine [] with input := [.eof, .eof] } : State).input = .eof :: [.eof] := by decide

theorem witness_InWaitsForAnAnswer : (machine []).input = [] := rfl

theorem witness_ReadOfAnUnwrittenRegisterFaults :
    (∀ q ∈ (Instr.store 0 1 7).registers, q < 8) ∧
      (registersRead (.store 0 1 7) (machine [0#64, 0#64])).find? (fun q => !(machine [0#64, 0#64]).isWritten q) = some 7 := by
  decide

theorem witness_RegisterNumberPastTheFileFaults :
    (Instr.add 7 8 9).registers.find? (fun q => decide (8 ≤ q)) = some 8 := by decide

theorem witness_FaultsArePrecise :
    ∃ t, (machine [0#64, 256#64]).run ≠ .faulted ∧ exec (.out 1) (machine [0#64, 256#64]) = .next t ∧ t.run = .faulted :=
  ⟨_, by decide, rfl, rfl⟩

theorem witness_OnlyTheDestinationRegisterChanges :
    ∃ t, exec (.lv 3 9) (machine []) = .next t ∧ (Instr.lv 3 9).destination ≠ some 4 := ⟨_, rfl, by decide⟩

theorem witness_FormsThatStoreNothingLeaveMemory :
    ∃ t, exec (.load 1 2 3) (machine [0#64, 0#64, 1#64, 2#64]) = .next t ∧ t.run = .running := ⟨_, rfl, rfl⟩

theorem witness_StoreLeavesEveryOtherAddress :
    ∃ t, exec (.store 0 1 2) (machine [1#64, 3#64, ones]) = .next t ∧ t.run = .running ∧
      storeAddress (machine [1#64, 3#64, ones]) 0 1 = (1#64, 3#64) := ⟨_, rfl, rfl, rfl⟩

theorem witness_AllocatorInstructionsLeaveOtherSegments_mapseg :
    (machine [4#64]).Inv ∧ ∃ t, exec (.mapseg 1 0) (machine [4#64]) = .next t ∧ t.run ≠ .faulted ∧ t.reg 1 = 2#64 :=
  ⟨machine_inv _, _, rfl, by decide, by decide⟩

theorem witness_AllocatorInstructionsLeaveOtherSegments_unmapseg_lp :
    (machine [1#64]).Inv ∧ (∃ t, exec (.unmapseg 0) (machine [1#64]) = .next t ∧ t.run ≠ .faulted) ∧
      ∃ t, exec (.lp 0 0) (machine [1#64]) = .next t ∧ t.run ≠ .faulted :=
  ⟨machine_inv _, ⟨_, rfl, by decide⟩, _, rfl, by decide⟩

theorem witness_PortsRecordAndLaunchAreLeftAlone :
    ∃ t, exec (.add 1 0 0) (machine [1#64]) = .next t ∧ t.run ≠ .faulted := ⟨_, rfl, by decide⟩

theorem witness_OutputOnlyGrows :
    ∃ t, step ((machine [65#64]).withFetchWord 32 0xA0000000) = .next t ∧ t.output = [65#8] := ⟨_, rfl, by decide⟩

theorem witness_PcMovesByOneExceptLpHaltAndFaults :
    ∃ t, (machine [0#64, ones]).run = .running ∧ exec (.lp 0 1) (machine [0#64, ones]) = .next t ∧ t.pc = ones :=
  ⟨_, rfl, rfl, by decide⟩

theorem witness_InputReachesOnlyIn :
    ∃ t, (∀ rc, Instr.out 0 ≠ .input rc) ∧ exec (.out 0) (machine [65#64]) = .next t := ⟨_, by simp, rfl⟩

theorem witness_StoreToTheNextIndexIsExecutedNext :
    ∃ t, (machine [0#64, 1#64, 0x70000000#64]).run = .running ∧
      exec (.store 0 1 2) (machine [0#64, 1#64, 0x70000000#64]) = .next t ∧ t.run = .running ∧
      storeAddress (machine [0#64, 1#64, 0x70000000#64]) 0 1 = (0#64, (machine [0#64, 1#64, 0x70000000#64]).pc + 1#64) :=
  ⟨_, rfl, rfl, rfl, by decide⟩

theorem witness_ReleasingSegmentZeroFaultsTheNextFetch :
    (machine [0#64]).run = .running ∧ (machine [0#64]).isWritten 0 = true ∧ (machine [0#64]).reg 0 = 0#64 ∧
      (machine [0#64]).mem.live 0#64 = true := by decide

theorem witness_PcIncrementNeverWraps : demoMemory.wf ∧ memRead .fetch demoMemory 0#64 3#64 = .ok 0#64 :=
  ⟨demoMemory_wf, rfl⟩

/-- A running machine about to execute `mapseg r1, r0`. -/
def mapsegMachine : State := { machine [4#64] with mem := memoryWith 0x80000008#64 }

theorem witness_MapsegNeverAnswersZero :
    mapsegMachine.Inv ∧ mapsegMachine.run = .running ∧
      memRead .fetch mapsegMachine.mem 0#64 mapsegMachine.pc = .ok 0x80000008#64 ∧
      decode (BitVec.ofNat 32 (0x80000008#64 : Word).toNat) = .mapseg 1 0 ∧
      ∃ t, step mapsegMachine = .next t ∧ t.run ≠ .faulted ∧ t.reg 1 = 2#64 :=
  ⟨{ memory_canonical := (by decide : (memoryWith 0x80000008#64).wf)
     allocator := memoryWith_allocatorInv _
     record_iff := by simp [mapsegMachine, machine, State.reset]
     before_boot := by simp [mapsegMachine, machine]
     parts_present := by simp [mapsegMachine, machine]
     program_minted := by simp [mapsegMachine, memoryWith] },
   rfl, rfl, rfl, _, rfl, by decide, by decide⟩

theorem witness_MemoryReadsWhatWasWritten :
    demoMemory.live 2#64 = false ∧ demoMemory.lengthOf 1#64 = some 4 ∧ 4 ≤ (4#64 : Word).toNat ∧ (3#64 : Word).toNat < 4 := by
  decide

theorem witness_DuplicateCopiesASnapshot :
    demoMemory.live 2#64 = false ∧ demoMemory.live 1#64 = true ∧ demoMemory.lengthOf 1#64 = some 4 ∧
      (Capacity.totalWords 11).admits demoMemory 4 = false ∧ (Capacity.totalWords 12).admits demoMemory 4 = true ∧
      demoMemory.live 0#64 = true := by decide

theorem witness_ReleasedIdIsReusedZeroed :
    ∃ m', release demoMemory 1#64 = .ok m' ∧ 4 < 2 ^ 64 ∧ (Capacity.totalWords 8).admits m' 4 = true :=
  ⟨_, rfl, by decide, by decide⟩

theorem witness_CanonicalMemoriesThatReadAlikeAreEqual : demoMemory.wf := demoMemory_wf

theorem witness_StepKeepsTheCanonicalMemory :
    (machine []).mem.wf ∧ ∃ t, step (machine []) = .next t := ⟨demoMemory_wf, _, rfl⟩

theorem witness_StepKeepsTheInvariant :
    (machine [0#64, 1#64, 2#64, 3#64]).Inv ∧ ∃ t, step (machine [0#64, 1#64, 2#64, 3#64]) = .next t ∧ t.reg 1 = 2#64 :=
  ⟨machine_inv _, _, rfl, by decide⟩

theorem witness_DecodeOfEncodeIsTheInstruction : (Instr.lv 7 33554431).wellFormed = true := by decide

theorem witness_EveryWordDecodesToAWellFormedInstruction : 13 ≤ fieldAt 0xD0000000#32 31 28 := by decide

theorem witness_UnusedBitsAreIgnored :
    fieldAt 0x0007FE53#32 31 28 = fieldAt 0x00000053#32 31 28 ∧ fieldAt 0x0007FE53#32 31 28 ≤ 6 ∧
      fieldAt 0x0007FE53#32 8 0 = fieldAt 0x00000053#32 8 0 ∧ fieldAt 0x7FFFFFFF#32 31 28 = 7 ∧
      fieldAt 0xC0000048#32 31 28 = 12 ∧ fieldAt 0xC0000048#32 5 0 = fieldAt 0xC0000008#32 5 0 ∧
      fieldAt 0xB0000039#32 31 28 = 11 ∧ fieldAt 0xB0000039#32 2 0 = fieldAt 0xB0000001#32 2 0 := by decide

theorem witness_EncodeThreeRegisterBuildsTheWord : (13 ≤ 13 ∧ 7 < 8) ∧ (13 < 14 ∨ 8 ≤ 7) := by decide

theorem witness_EncodeImmediateBuildsTheWord : (13 ≤ 13 ∧ 7 < 8 ∧ 33554431 < 2 ^ 25) ∧ 2 ^ 25 ≤ 33554432 := by decide

theorem witness_EncodersAndFieldDecodersAgree : 0 ≤ 13 ∧ 7 < 8 ∧ 0 < 8 ∧ 33554431 < 2 ^ 25 := by decide

theorem witness_DisassemblyReassembles : fieldAt 0xDFFFFFFF#32 31 28 ≤ 13 := by decide

end Sys2Proof.Tests
end

/-! The statements of 10_state.md: reset, the run state, registers, ports and the pc, each under the rules about `Effect`, `step`
or a shared operation that it rests on. -/

/-! ## The register numbers a word names -/

namespace Sys2Proof

theorem fieldRa_lt (w : InstrWord) : fieldRa w < 8 := (w.extractLsb' 6 3).isLt
theorem fieldRb_lt (w : InstrWord) : fieldRb w < 8 := (w.extractLsb' 3 3).isLt
theorem fieldRc_lt (w : InstrWord) : fieldRc w < 8 := (w.extractLsb' 0 3).isLt
theorem fieldRd_lt (w : InstrWord) : fieldRd w < 8 := (w.extractLsb' 25 3).isLt

/-- The register numbers an opcode takes from a word are three-bit fields (R55, R56). -/
theorem operands_registers_lt (op : Opcode) (w : InstrWord) : ∀ r ∈ (op.operands w).registers, r < 8 := by
  cases op <;> simp [Opcode.operands, Instr.registers, fieldRa_lt, fieldRb_lt, fieldRc_lt, fieldRd_lt]

/-- No word names a register past the file (R75). -/
theorem decode_registers_lt (w : InstrWord) : ∀ r ∈ (decode w).registers, r < 8 := by
  unfold decode
  split
  · next op _ => exact operands_registers_lt op w
  · split
    · simp [Instr.registers]
    · simp [Instr.registers]

end Sys2Proof

namespace Sys2Proof.Machine

/-! ## Reset and construction -/

/-- In the memory at reset only segment 0 is live (R29). -/
theorem reset_live_iff (id : Word) : State.reset.mem.live id = true ↔ id = 0#64 := by
  simp [Memory.live, Memory.segment, State.reset, assocFind, BitVec.toNat_eq, @eq_comm _ 0]

/-- Settles O1: `reset_live_iff` for liveness, the other fields as `State.reset` writes them. -/
theorem resetHoldsTheSpecsValues : Obligations.ResetHoldsTheSpecsValues :=
  ⟨by decide, rfl, rfl, rfl, rfl, reset_live_iff, rfl, rfl, rfl⟩

/-- The allocator's invariant at reset: id 0 is the one minted id (R34). -/
theorem reset_allocatorInv : State.reset.mem.allocatorInv where
  live_iff id := by
    have hpool : State.reset.mem.free = [] := rfl
    have hnext : State.reset.mem.nextId = 1 := rfl
    simp [reset_live_iff, hpool, hnext, BitVec.toNat_eq]
  free_minted _ hid := nomatch hid
  free_nodup := List.nodup_nil
  nextId_le := by decide

/-- The allocator's invariant before the first allocation: nothing is minted, nothing is live (R34, R35). -/
theorem constructed_allocatorInv : Memory.constructed.allocatorInv where
  live_iff _ := by simp [Memory.live, Memory.segment, Memory.constructed]
  free_minted _ hid := nomatch hid
  free_nodup := List.nodup_nil
  nextId_le := Nat.zero_le _

theorem reset_inv : State.reset.Inv where
  memory_canonical := reset_memory_wf
  allocator := reset_allocatorInv
  record_iff := by decide
  before_boot := by decide
  parts_present := by decide
  program_minted _ := Nat.le_refl 1

theorem construct_inv (parts : Parts) (storage : List (List Byte)) (input : List InAnswer) (capacity : Capacity) (z : Bool) :
    (State.construct parts storage input capacity z).Inv where
  memory_canonical := show Memory.constructed.wf by decide
  allocator := constructed_allocatorInv
  record_iff := by simp [State.construct]
  before_boot _ := rfl
  parts_present := by simp [State.construct]
  program_minted := by simp [State.construct]

/-- Settles O51: a memory as constructed has no id, that at reset has id 0 alone. -/
theorem resetAndConstructionMeetTheInvariant : Obligations.ResetAndConstructionMeetTheInvariant :=
  ⟨reset_inv, construct_inv⟩

/-! ## The run state -/

theorem step_of_ready {s : State} (h : s.run = .ready) : step s = .next { s with run := .running } := by
  simp [step, startLoop, h]

theorem step_of_halted {s : State} (h : s.run = .halted) : step s = .next s := by
  simp [step, h]

theorem step_of_faulted {s : State} (h : s.run = .faulted) : step s = .next s := by
  simp [step, h]

/-- Settles O6: in Ready a step is `startLoop`. -/
theorem loopStartOnlyMovesTheRunState : Obligations.LoopStartOnlyMovesTheRunState :=
  fun _ => step_of_ready

/-- Settles O9, one terminal state at a time. -/
theorem terminalStatesStay : Obligations.TerminalStatesStay :=
  fun _ h => h.elim step_of_halted step_of_faulted

/-- Every run state but Ready and Halted may become Faulted (R23). -/
theorem RunState.mayBecome_faulted {r : RunState} (hready : r ≠ .ready) (hhalted : r ≠ .halted) :
    r.mayBecome .faulted = true := by
  cases r with
  | ready => exact absurd rfl hready
  | halted => exact absurd rfl hhalted
  | _ => rfl

/-- Settles O10: `step_cases` names every move; while running, a completion stays Running or is HALT's. -/
theorem runStateFollowsTheStateMachine : Obligations.RunStateFollowsTheStateMachine := by
  intro s t h
  obtain ⟨w, c, hready, hhalted, -, rfl⟩ | ⟨hr, -, rfl⟩ | ⟨hr, blob, m, -, -, rfl⟩ | ⟨hr, rfl⟩ | ⟨hr, cell, -, he⟩ |
    ⟨hr | hr, rfl⟩ := step_cases h
  · exact RunState.mayBecome_faulted hready hhalted
  · rw [hr]; rfl
  · rw [hr]; rfl
  · rw [hr]; rfl
  · obtain ht | ⟨-, ht⟩ := he.run_cases
    · rw [ht, hr]; rfl
    · rw [ht, hr]; rfl
  · rw [hr]; rfl
  · rw [hr]; rfl

/-! ## Frames of a completion -/

/-- The registers of a completion: as before, or as after one write of the destination (R16). -/
theorem Effect.registers_cases {i : Instr} {s t : State} (h : Effect i s t) :
    (t.regs = s.regs ∧ t.written = s.written) ∨
      ∃ d v, i.destination = some d ∧ t.regs = (s.regWrite d v).regs ∧ t.written = (s.regWrite d v).written := by
  cases h with
  | cmovSkip | store | unmapseg | halt | lp | out | inputWait => exact .inl ⟨rfl, rfl⟩
  | _ => exact .inr ⟨_, _, rfl, rfl, rfl⟩

/-- A register is read through the register file alone. -/
theorem State.reg_congr {s t : State} (h : t.regs = s.regs) (r : Nat) : t.reg r = s.reg r := by
  simp only [State.reg, h]

/-- A mark is read through the marks alone. -/
theorem State.isWritten_congr {s t : State} (h : t.written = s.written) (r : Nat) : t.isWritten r = s.isWritten r := by
  simp only [State.isWritten, h]

/-- A completion leaves every register but the destination alone (R16). -/
theorem Effect.registers_frame {i : Instr} {s t : State} (h : Effect i s t) {r : Nat} (hr : i.destination ≠ some r) :
    t.reg r = s.reg r ∧ t.isWritten r = s.isWritten r := by
  obtain ⟨hregs, hmarks⟩ | ⟨d, v, hd, hregs, hmarks⟩ := h.registers_cases
  · exact ⟨State.reg_congr hregs r, State.isWritten_congr hmarks r⟩
  · have hdr : d ≠ r := fun e => hr (e ▸ hd)
    exact ⟨(State.reg_congr hregs r).trans (s.reg_regWrite_ne d r v hdr),
      (State.isWritten_congr hmarks r).trans (s.isWritten_regWrite_ne d r v hdr)⟩

/-- The output of a completion: as before, or Out's byte appended (R26). -/
theorem Effect.output_cases {i : Instr} {s t : State} (h : Effect i s t) :
    t.output = s.output ∨ ∃ rc, i = .out rc ∧ t.output = s.output ++ [byteOf (s.reg rc)] := by
  cases h with
  | out => exact .inr ⟨_, rfl, rfl⟩
  | _ => exact .inl rfl

/-- No completion but In's takes an answer (R27). -/
theorem Effect.input_frame {i : Instr} {s t : State} (h : Effect i s t) (hi : ∀ rc, i ≠ .input rc) : t.input = s.input := by
  cases h with
  | inputAnswer => exact absurd rfl (hi _)
  | _ => rfl

/-- Settles O33: a fault touches no register, a completion only its destination. -/
theorem onlyTheDestinationRegisterChanges : Obligations.OnlyTheDestinationRegisterChanges := by
  intro i s t h r hr
  obtain ⟨c, rfl⟩ | he := exec_cases h
  · exact ⟨rfl, rfl⟩
  · exact he.registers_frame hr

/-- Settles O34: `Effect.mem_cases` leaves only the four excluded forms a memory of their own. -/
theorem formsThatStoreNothingLeaveMemory : Obligations.FormsThatStoreNothingLeaveMemory := by
  intro i s t h hstore hmapseg hunmapseg hlp
  have hmem : t.mem = s.mem := by
    obtain ⟨c, rfl⟩ | he := exec_cases h
    · rfl
    · obtain hm | ⟨_, _, _, e, -⟩ | ⟨_, _, _, e, -⟩ | ⟨_, e, -⟩ | ⟨_, _, e, -⟩ := he.mem_cases
      · exact hm
      · exact absurd e (hstore _ _ _)
      · exact absurd e (hmapseg _ _)
      · exact absurd e (hunmapseg _)
      · exact absurd e (hlp _ _)
  rw [hmem]
  exact ⟨fun _ _ _ => rfl, fun _ => rfl, rfl, rfl⟩

/-- Settles O37: a fault writes only the run state and the record, a completion the output only as Out and the answers only as In. -/
theorem portsRecordAndLaunchAreLeftAlone : Obligations.PortsRecordAndLaunchAreLeftAlone := by
  intro i s t h
  obtain ⟨c, rfl⟩ | he := exec_cases h
  · exact ⟨fun hrun => absurd rfl hrun, fun _ => rfl, fun _ => rfl, rfl, rfl, rfl⟩
  · obtain ⟨hrecord, hlaunch⟩ := he.frame
    refine ⟨fun _ => hrecord, fun hout => ?_, he.input_frame, hlaunch⟩
    exact he.output_cases.resolve_right fun ⟨rc, e, _⟩ => hout rc e

/-- Settles O38: of all that a step can do only Out's completion touches the output. -/
theorem outputOnlyGrows : Obligations.OutputOnlyGrows := by
  intro s t h
  obtain ⟨w, c, -, -, -, rfl⟩ | ⟨-, -, rfl⟩ | ⟨-, blob, m, -, -, rfl⟩ | ⟨-, rfl⟩ | ⟨-, cell, -, he⟩ | ⟨-, rfl⟩ := step_cases h
  · exact .inl rfl
  · exact .inl rfl
  · exact .inl rfl
  · exact .inl rfl
  · exact he.output_cases.imp_right fun ⟨_, _, ht⟩ => ⟨_, ht⟩
  · exact .inl rfl

/-- Settles O43: the pc lies below the length of segment 0, and a canonical length is a `Word`. -/
theorem pcIncrementNeverWraps : Obligations.PcIncrementNeverWraps := by
  intro s cell hm h
  obtain ⟨g, hg, hlt, -⟩ := memRead_ok_iff.1 h
  obtain ⟨-, -, hlen : g.length < 2 ^ 64⟩ := Memory.segment_wf hm hg
  rw [BitVec.toNat_add_of_lt (by simpa using Nat.lt_of_le_of_lt hlt hlen)]
  rfl

/-! ## The checks of the register operands -/

/-- Every instruction checks its register numbers before anything else (R75, R101 step 3). -/
theorem exec_checks_registers (i : Instr) (s : State) : ∃ f, exec i s = complete s (checkRegisters i.registers >>= f) := by
  cases i with
  | halt => exact ⟨fun _ => .ok { s with run := .halted }, rfl⟩
  | invalid14 rest => exact ⟨fun _ => .error _, rfl⟩
  | invalid15 rest => exact ⟨fun _ => .error _, rfl⟩
  | _ => exact ⟨_, rfl⟩

/-- The check answers the first register number past the file (R19; log 27). -/
theorem checkRegisters_of_find {rs : List Nat} {r : Nat} (h : rs.find? (fun q => decide (8 ≤ q)) = some r) :
    checkRegisters rs = .error (.registerOutOfBounds r) := by
  induction rs with
  | nil => cases h
  | cons q rest ih =>
    by_cases hq : 8 ≤ q
    · obtain rfl : q = r := by simpa [hq] using h
      simp [checkRegisters, Nat.not_lt.2 hq]
    · simpa [checkRegisters, Nat.not_le.1 hq] using ih (by simpa [hq] using h)

/-- Settles O30: the check comes first, and a decoded register number is a three-bit field. -/
theorem registerNumberPastTheFileFaults : Obligations.RegisterNumberPastTheFileFaults := by
  refine ⟨fun i s r h => ?_, decode_registers_lt⟩
  obtain ⟨f, hf⟩ := exec_checks_registers i s
  rw [hf, checkRegisters_of_find h]
  rfl

/-- The first register of a reading list that has not been written (R18). -/
abbrev State.firstUnwritten (s : State) (rs : List Nat) : Option Nat := rs.find? (fun q => !s.isWritten q)

/-- A sequence of reads faults at the first unwritten register, whichever of its reads that is. -/
theorem regRead_bind_of_firstUnwritten {α : Type} {s : State} {q r : Nat} {rest : List Nat} {f : Word → Except FaultCause α}
    (h : s.firstUnwritten (q :: rest) = some r)
    (hrest : s.firstUnwritten rest = some r → f (s.reg q) = .error (.unwrittenRegister r)) :
    (regRead s q >>= f) = .error (.unwrittenRegister r) := by
  cases hq : s.isWritten q with
  | false =>
    obtain rfl : q = r := by simpa [hq] using h
    rw [regRead_of_unwritten hq]
    rfl
  | true =>
    rw [regRead_of_written hq]
    exact hrest (by simpa [hq] using h)

/-- Register numbers in the file pass the check, so a later failure is the instruction's fault (R101). -/
theorem complete_of_registers_fit {s : State} {rs : List Nat} {f : Unit → Except FaultCause State} {c : FaultCause}
    (hrs : ∀ q ∈ rs, q < 8) (h : f () = .error c) : complete s (checkRegisters rs >>= f) = faultTaken s c := by
  rw [checkRegisters_ok_iff.2 hrs, except_ok_bind, h]
  rfl

theorem aluInstruction_of_firstUnwritten {s : State} {op : AluOp} {ra rb rc r : Nat} (hrs : ∀ q ∈ [ra, rb, rc], q < 8)
    (h : s.firstUnwritten [rb, rc] = some r) : aluInstruction op ra rb rc s = faultTaken s (.unwrittenRegister r) :=
  complete_of_registers_fit hrs <|
    regRead_bind_of_firstUnwritten h fun h => regRead_bind_of_firstUnwritten h nofun

/-- CMov reads `rb` only when `x[rc]` is not 0 (D6). -/
theorem execCmov_of_firstUnwritten {s : State} {ra rb rc r : Nat} (hrs : ∀ q ∈ [ra, rb, rc], q < 8)
    (h : s.firstUnwritten (registersRead (.cmov ra rb rc) s) = some r) :
    execCmov ra rb rc s = faultTaken s (.unwrittenRegister r) := by
  by_cases hz : s.reg rc = 0#64
  · simp only [registersRead, hz, if_true] at h
    exact complete_of_registers_fit hrs (regRead_bind_of_firstUnwritten h nofun)
  · simp only [registersRead, hz, if_false] at h
    refine complete_of_registers_fit hrs (regRead_bind_of_firstUnwritten h fun h => ?_)
    simpa [isZero, hz] using regRead_bind_of_firstUnwritten h nofun

/-- Settles O29: each meaning reads its registers one after the other, in the order of `registersRead`, right after the check of
their numbers. -/
theorem readOfAnUnwrittenRegisterFaults : Obligations.ReadOfAnUnwrittenRegisterFaults := by
  intro i s r hrs h
  cases i with
  | cmov ra rb rc => exact execCmov_of_firstUnwritten hrs h
  | add ra rb rc | mul ra rb rc | div ra rb rc | nand ra rb rc => exact aluInstruction_of_firstUnwritten hrs h
  | store ra rb rc =>
    exact complete_of_registers_fit hrs <| regRead_bind_of_firstUnwritten h fun h =>
      regRead_bind_of_firstUnwritten h fun h => regRead_bind_of_firstUnwritten h nofun
  | load ra rb rc | lp rb rc =>
    exact complete_of_registers_fit hrs <| regRead_bind_of_firstUnwritten h fun h => regRead_bind_of_firstUnwritten h nofun
  | mapseg rb rc | unmapseg rc | out rc => exact complete_of_registers_fit hrs (regRead_bind_of_firstUnwritten h nofun)
  | halt | input rc | lv rd imm | invalid14 rest | invalid15 rest => cases h

/-! ## The environment's answers -/

/-- `s` with other answers still to come (R27). -/
def State.withAnswers (answers : List InAnswer) (s : State) : State := { s with input := answers }

/-- The end of a meaning: neither the fault entry nor the completion looks at the answers. -/
theorem complete_withAnswers {s t : State} {r : Except FaultCause State} (answers : List InAnswer)
    (h : complete s r = .next t) :
    complete (s.withAnswers answers) (State.withAnswers answers <$> r) = .next (t.withAnswers answers) := by
  obtain ⟨c, rfl, rfl⟩ | rfl := complete_cases h
  · rfl
  · rfl

/-- Every meaning but In's computes the same with other answers: its checks and reads do not see them, and its result keeps
them. -/
theorem exec_withAnswers_eq {i : Instr} (hi : ∀ rc, i ≠ .input rc) (s : State) (answers : List InAnswer) :
    ∃ r, exec i s = complete s r ∧
      exec i (s.withAnswers answers) = complete (s.withAnswers answers) (State.withAnswers answers <$> r) := by
  cases i with
  | input rc => exact absurd rfl (hi rc)
  | halt => exact ⟨.ok { s with run := .halted }, rfl, rfl⟩
  | invalid14 rest => exact ⟨.error _, rfl, rfl⟩
  | invalid15 rest => exact ⟨.error _, rfl, rfl⟩
  | cmov ra rb rc | out rc => exact ⟨_, rfl, congrArg (complete _) (by simp only [map_bind, apply_ite]; rfl)⟩
  | _ => exact ⟨_, rfl, congrArg (complete _) (by simp only [map_bind]; rfl)⟩

/-- Settles O40: the answers pass through a meaning unseen, and through its end. -/
theorem inputReachesOnlyIn : Obligations.InputReachesOnlyIn := by
  intro i s t answers hi h
  obtain ⟨r, hr, hr'⟩ := exec_withAnswers_eq hi s answers
  exact hr'.trans (complete_withAnswers answers (hr ▸ h))

end Sys2Proof.Machine

/-! The statements of 20_memory.md: the frame of each memory operation, what every instruction and step keep of the memory, and the
statements that rest on them. -/

namespace Sys2Proof.Machine

/-! ## The operations, one equation per case -/

/-- A number below the word limit is its own word (R6). -/
theorem toNat_ofNat_of_lt_wordLimit {n : Nat} (h : n < wordLimit) : (BitVec.ofNat 64 n).toNat = n := by
  rw [BitVec.toNat_ofNat, Nat.mod_eq_of_lt h]

theorem Memory.segment_eq_none_iff {m : Memory} {s : Word} : m.segment s = none ↔ m.live s = false := by
  simp [Memory.live]

theorem Memory.lengthOf_eq_some_iff {m : Memory} {s : Word} {n : Nat} :
    m.lengthOf s = some n ↔ ∃ g, m.segment s = some g ∧ g.length = n := by
  simp [Memory.lengthOf]

/-- A segment is observed through the segment map alone. -/
theorem Memory.observe_congr {m m' : Memory} {id : Word} (h : m'.segment id = m.segment id) :
    SameSegment m m' id ∧ m'.lengthOf id = m.lengthOf id :=
  ⟨fun _ => memRead_congr h, congrArg (Option.map Segment.length) h⟩

section Access

variable {a : Access} {m : Memory} {s i v : Word} {g : Segment}

theorem memRead_of_not_live (h : m.live s = false) : memRead a m s i = .error (.outOfBounds s (some i) .notLive a) := by
  simp [memRead, Memory.segment_eq_none_iff.2 h]

theorem memWrite_of_not_live (h : m.live s = false) :
    memWrite a m s i v = .error (.outOfBounds s (some i) .notLive a) := by
  simp [memWrite, Memory.segment_eq_none_iff.2 h]

theorem memRead_of_length_le (hg : m.segment s = some g) (hi : g.length ≤ i.toNat) :
    memRead a m s i = .error (.outOfBounds s (some i) .pastEnd a) := by
  simp [memRead, hg, Nat.not_lt.2 hi]

theorem memWrite_of_length_le (hg : m.segment s = some g) (hi : g.length ≤ i.toNat) :
    memWrite a m s i v = .error (.outOfBounds s (some i) .pastEnd a) := by
  simp [memWrite, hg, Nat.not_lt.2 hi]

theorem memRead_of_lt (hg : m.segment s = some g) (hi : i.toNat < g.length) : memRead a m s i = .ok (g.get i.toNat) :=
  memRead_ok_iff.2 ⟨g, hg, hi, rfl⟩

theorem memWrite_of_lt (hg : m.segment s = some g) (hi : i.toNat < g.length) :
    memWrite a m s i v = .ok (m.setSegment s (g.put i.toNat v)) :=
  memWrite_ok_iff.2 ⟨g, hg, hi, rfl⟩

end Access

/-- A pool that is not empty answers its top (R37, R42). -/
theorem alloc_of_pool {c : Capacity} {m : Memory} {n : Nat} {id : Word} {rest : List Word} (hn : n < wordLimit)
    (hc : c.admits m n = true) (hpool : m.free = id :: rest) :
    alloc c m n = .ok (id, { m with free := rest }.setSegment id (Segment.zeros n)) := by
  simp only [alloc, hn, hc, hpool, and_self, if_true]

section Duplicate

variable {c : Capacity} {m : Memory} {f t : Word} {g : Segment}

theorem duplicate_of_source_not_live (hf : m.live f = false) :
    duplicate c m f t = .error (.outOfBounds f none .notLive .copy) := by
  simp [duplicate, Memory.segment_eq_none_iff.2 hf]

theorem duplicate_of_target_not_live (hg : m.segment f = some g) (ht : m.live t = false) :
    duplicate c m f t = .error (.outOfBounds t none .notLive .copy) := by
  simp [duplicate, hg, ht]

theorem duplicate_of_not_admitted (hg : m.segment f = some g) (ht : m.live t = true) (hc : c.admits m g.length = false) :
    duplicate c m f t = .error (.allocFailed g.length) := by
  simp [duplicate, hg, ht, hc]

end Duplicate

/-! ## Frames of the memory operations -/

theorem memWrite_segment_ne {a : Access} {m m' : Memory} {s i v id : Word} (h : memWrite a m s i v = .ok m') (hid : id ≠ s) :
    m'.segment id = m.segment id := by
  obtain ⟨g, -, -, rfl⟩ := memWrite_ok_iff.1 h
  exact m.segment_setSegment_ne _ hid.symm

theorem memWrite_bookkeeping {a : Access} {m m' : Memory} {s i v : Word} (h : memWrite a m s i v = .ok m') :
    m'.free = m.free ∧ m'.nextId = m.nextId := by
  obtain ⟨g, -, -, rfl⟩ := memWrite_ok_iff.1 h
  exact ⟨rfl, rfl⟩

/-- A word written reads as the value written (R40). -/
theorem memRead_memWrite_self {a b : Access} {m m' : Memory} {s i v : Word} (h : memWrite a m s i v = .ok m') :
    memRead b m' s i = .ok v := by
  obtain ⟨g, -, hi, rfl⟩ := memWrite_ok_iff.1 h
  exact memRead_ok_iff.2 ⟨_, m.segment_setSegment_self _ _, hi, g.get_put_self _ _⟩

/-- A write leaves every other word alone, those of its own segment too (R40). -/
theorem memRead_memWrite_ne {a b : Access} {m m' : Memory} {s i v id k : Word} (h : memWrite a m s i v = .ok m')
    (hne : (id, k) ≠ (s, i)) : memRead b m' id k = memRead b m id k := by
  by_cases hid : id = s
  · subst hid
    obtain ⟨g, hg, -, rfl⟩ := memWrite_ok_iff.1 h
    have hk : i.toNat ≠ k.toNat := fun e => hne (by rw [BitVec.eq_of_toNat_eq e])
    simp [memRead, hg, Segment.get_put_ne g v hk]
  · exact memRead_congr (memWrite_segment_ne h hid) k

/-- A write never changes a length (R40). -/
theorem memWrite_lengthOf {a : Access} {m m' : Memory} {s i v : Word} (h : memWrite a m s i v = .ok m') (id : Word) :
    m'.lengthOf id = m.lengthOf id := by
  by_cases hid : id = s
  · subst hid
    obtain ⟨g, hg, -, rfl⟩ := memWrite_ok_iff.1 h
    simp [Memory.lengthOf, hg]
  · exact (Memory.observe_congr (memWrite_segment_ne h hid)).2

theorem alloc_segment_ne {c : Capacity} {m : Memory} {n : Nat} {r : Word × Memory} {id : Word} (h : alloc c m n = .ok r)
    (hid : id ≠ r.1) : r.2.segment id = m.segment id := by
  obtain ⟨-, -, ⟨_, rest, -, rfl⟩ | ⟨-, -, rfl⟩⟩ := alloc_cases h
  · exact Memory.segment_setSegment_ne { m with free := rest } _ hid.symm
  · exact Memory.segment_setSegment_ne { m with nextId := m.nextId + 1 } _ hid.symm

/-- The new segment is all zeros (R37). -/
theorem alloc_segment_self {c : Capacity} {m : Memory} {n : Nat} {r : Word × Memory} (h : alloc c m n = .ok r) :
    r.2.segment r.1 = some (Segment.zeros n) := by
  obtain ⟨-, -, ⟨_, rest, -, rfl⟩ | ⟨-, -, rfl⟩⟩ := alloc_cases h
  · exact Memory.segment_setSegment_self _ _ _
  · exact Memory.segment_setSegment_self _ _ _

theorem alloc_nextId_le {c : Capacity} {m : Memory} {n : Nat} {r : Word × Memory} (h : alloc c m n = .ok r) :
    m.nextId ≤ r.2.nextId := by
  obtain ⟨-, -, ⟨_, rest, -, rfl⟩ | ⟨-, -, rfl⟩⟩ := alloc_cases h
  · exact Nat.le_refl _
  · exact Nat.le_succ _

/-- An id that Alloc answers was in the pool or not yet minted, so it was not live (R34). -/
theorem alloc_not_live {c : Capacity} {m : Memory} {n : Nat} {r : Word × Memory} (hm : m.allocatorInv)
    (h : alloc c m n = .ok r) : m.live r.1 = false := by
  rw [Bool.eq_false_iff, Ne, hm.live_iff]
  rintro ⟨hminted, hfree⟩
  obtain ⟨-, -, ⟨id, rest, hpool, rfl⟩ | ⟨-, hn, rfl⟩⟩ := alloc_cases h
  · exact hfree (hpool ▸ List.mem_cons_self)
  · rw [toNat_ofNat_of_lt_wordLimit hn] at hminted
    exact Nat.lt_irrefl _ hminted

theorem release_segment_ne {m m' : Memory} {s id : Word} (h : release m s = .ok m') (hid : id ≠ s) :
    m'.segment id = m.segment id := by
  obtain ⟨-, rfl⟩ := release_ok_iff.1 h
  exact m.segment_erase_ne _ hid.symm

theorem release_nextId {m m' : Memory} {s : Word} (h : release m s = .ok m') : m'.nextId = m.nextId := by
  obtain ⟨-, rfl⟩ := release_ok_iff.1 h
  rfl

theorem duplicate_segment_ne {c : Capacity} {m m' : Memory} {f t id : Word} (h : duplicate c m f t = .ok m') (hid : id ≠ t) :
    m'.segment id = m.segment id := by
  obtain ⟨g, -, -, -, rfl⟩ := duplicate_ok_iff.1 h
  exact m.segment_setSegment_ne _ hid.symm

/-- After Duplicate the target is the very segment the source was (R41). -/
theorem duplicate_segment_self {c : Capacity} {m m' : Memory} {f t : Word} (h : duplicate c m f t = .ok m') :
    m'.segment t = m.segment f := by
  obtain ⟨g, hg, -, -, rfl⟩ := duplicate_ok_iff.1 h
  rw [hg, m.segment_setSegment_self]

theorem duplicate_nextId {c : Capacity} {m m' : Memory} {f t : Word} (h : duplicate c m f t = .ok m') :
    m'.nextId = m.nextId := by
  obtain ⟨g, -, -, -, rfl⟩ := duplicate_ok_iff.1 h
  rfl

/-! ## What instructions and steps keep of the memory -/

/-- What the four memory operations keep, every completion keeps. -/
theorem Effect.mem_preserves {P : Memory → Prop} {i : Instr} {s t : State} (he : Effect i s t)
    (hwrite : ∀ {m m' : Memory} {id k v : Word}, P m → memWrite .store m id k v = .ok m' → P m')
    (halloc : ∀ {c : Capacity} {m : Memory} {n : Nat} {r : Word × Memory}, P m → alloc c m n = .ok r → P r.2)
    (hrelease : ∀ {m m' : Memory} {id : Word}, P m → release m id = .ok m' → P m')
    (hduplicate : ∀ {c : Capacity} {m m' : Memory} {f t : Word}, P m → duplicate c m f t = .ok m' → P m')
    (h : P s.mem) : P t.mem := by
  obtain hm | ⟨_, _, _, -, hm⟩ | ⟨_, _, id, -, hm⟩ | ⟨_, -, hm⟩ | ⟨_, _, -, -, hm⟩ := he.mem_cases
  · exact hm ▸ h
  · exact hwrite h hm
  · exact halloc h hm
  · exact hrelease h hm
  · exact hduplicate h hm

theorem Effect.mem_wf {i : Instr} {s t : State} (he : Effect i s t) (h : s.mem.wf) : t.mem.wf :=
  he.mem_preserves memWrite_wf alloc_wf release_wf duplicate_wf h

theorem Effect.mem_allocatorInv {i : Instr} {s t : State} (he : Effect i s t) (h : s.mem.allocatorInv) :
    t.mem.allocatorInv :=
  he.mem_preserves memWrite_allocatorInv alloc_allocatorInv release_allocatorInv duplicate_allocatorInv h

/-- No id is ever unminted (R38: a released id goes to the pool). -/
theorem Effect.nextId_le {i : Instr} {s t : State} (he : Effect i s t) : s.mem.nextId ≤ t.mem.nextId :=
  he.mem_preserves (P := fun m => s.mem.nextId ≤ m.nextId)
    (fun h hw => (memWrite_bookkeeping hw).2 ▸ h) (fun h ha => h.trans (alloc_nextId_le ha))
    (fun h hr => release_nextId hr ▸ h) (fun h hd => duplicate_nextId hd ▸ h) (Nat.le_refl _)

/-- Settles O49: only a completion and the boot load write memory, and each of their operations keeps the canonical form. -/
theorem stepKeepsTheCanonicalMemory : Obligations.StepKeepsTheCanonicalMemory := by
  intro s t hwf h
  obtain ⟨w, c, -, -, -, rfl⟩ | ⟨-, -, rfl⟩ | ⟨-, blob, m, -, hm, rfl⟩ | ⟨-, rfl⟩ | ⟨-, cell, -, he⟩ | ⟨-, rfl⟩ := step_cases h
  · exact hwf
  · exact hwf
  · exact loadImage_wf hwf hm
  · exact hwf
  · exact he.mem_wf hwf
  · exact hwf

/-! ## The machine's invariant, case by case of `step_cases` -/

section Invariant

variable {s : State} (h : s.Inv)
include h

/-- There is no record before a fault (R24). -/
theorem State.Inv.record_eq_none (hr : s.run ≠ .faulted) : s.record = none := by
  simpa [hr] using h.record_iff

theorem State.Inv.enterFault (w : Option InstrWord) (c : FaultCause) : (s.enterFault w c).Inv where
  memory_canonical := h.memory_canonical
  allocator := h.allocator
  record_iff := by simp
  before_boot := by simp
  parts_present := by simp
  program_minted := by simp

theorem State.Inv.selfTestPassed (hr : s.run = .constructed) (hparts : s.missingParts = []) :
    ({ s with run := .tested } : State).Inv where
  memory_canonical := h.memory_canonical
  allocator := h.allocator
  record_iff := by simp [h.record_eq_none (by simp [hr])]
  before_boot _ := h.before_boot (.inl hr)
  parts_present _ := hparts
  program_minted := by simp

/-- The boot load starts from an empty pool, so it mints id 0 (R35, R113). -/
theorem State.Inv.imageLoaded {blob : List Byte} {m : Memory} (hr : s.run = .tested)
    (hm : loadImage s.capacity s.mem blob = .ok m) :
    ({ s with mem := m, pc := 0#64, run := .ready } : State).Inv where
  memory_canonical := loadImage_wf h.memory_canonical hm
  allocator := loadImage_allocatorInv h.allocator hm
  record_iff := by simp [h.record_eq_none (by simp [hr])]
  before_boot := by simp
  parts_present := by simp
  program_minted _ := by
    have hpool : s.mem.free = [] := by rw [h.before_boot (.inr hr)]; rfl
    rw [loadImage_nextId hpool hm]
    exact Nat.le_add_left 1 _

theorem State.Inv.loopStarted (hr : s.run = .ready) : ({ s with run := .running } : State).Inv where
  memory_canonical := h.memory_canonical
  allocator := h.allocator
  record_iff := by simp [h.record_eq_none (by simp [hr])]
  before_boot := by simp
  parts_present := by simp
  program_minted _ := h.program_minted (.inl hr)

theorem State.Inv.completed {i : Instr} {t : State} (hr : s.run = .running) (he : Effect i s t) : t.Inv := by
  have hrun : t.run = .running ∨ t.run = .halted := he.run_cases.imp (·.trans hr) (·.2)
  have hrecord : t.record = none := he.frame.1.trans (h.record_eq_none (by simp [hr]))
  exact {
    memory_canonical := he.mem_wf h.memory_canonical
    allocator := he.mem_allocatorInv h.allocator
    record_iff := by rcases hrun with e | e <;> simp [hrecord, e]
    before_boot := by rcases hrun with e | e <;> simp [e]
    parts_present := by rcases hrun with e | e <;> simp [e]
    program_minted := fun _ => (h.program_minted (.inr (.inl hr))).trans he.nextId_le }

end Invariant

/-- Settles O50: each case of `step_cases` keeps the invariant. -/
theorem stepKeepsTheInvariant : Obligations.StepKeepsTheInvariant := by
  intro s t hs h
  obtain ⟨w, c, -, -, -, rfl⟩ | ⟨hr, hparts, rfl⟩ | ⟨hr, blob, m, -, hm, rfl⟩ | ⟨hr, rfl⟩ | ⟨hr, cell, -, he⟩ | ⟨-, rfl⟩ :=
    step_cases h
  · exact hs.enterFault w c
  · exact hs.selfTestPassed hr hparts
  · exact hs.imageLoaded hr hm
  · exact hs.loopStarted hr
  · exact hs.completed hr he
  · exact hs

/-! ## What one completion does to memory -/

/-- An instruction that has not faulted has completed. -/
theorem effect_of_not_faulted {i : Instr} {s t : State} (h : exec i s = .next t) (hrun : t.run ≠ .faulted) : Effect i s t := by
  obtain ⟨c, rfl⟩ | he := exec_cases h
  · exact absurd rfl hrun
  · exact he

/-- MapSeg's destination holds the new id (R91). -/
theorem Effect.mapseg_alloc {rb rc : Nat} {s t : State} (he : Effect (.mapseg rb rc) s t) :
    alloc s.capacity s.mem (s.reg rc).toNat = .ok (t.reg rb, t.mem) := by
  cases he with
  | @mapseg _ _ _ r hr hc hm =>
    have hid : (({ s with mem := r.2 } : State).regWrite rb r.1).advance.reg rb = r.1 :=
      State.reg_regWrite_self _ rb r.1 (hr rb List.mem_cons_self)
    rw [hid]
    exact hm

theorem Effect.unmapseg_release {rc : Nat} {s t : State} (he : Effect (.unmapseg rc) s t) :
    release s.mem (s.reg rc) = .ok t.mem := by
  cases he with
  | unmapseg hr hc hm => exact hm

theorem Effect.lp_loadProgram {rb rc : Nat} {s t : State} (he : Effect (.lp rb rc) s t) :
    loadProgram s (s.reg rb) = .ok t.mem := by
  cases he with
  | lp hr hb hc hm => exact hm

/-- LP writes segment 0 alone (R94). -/
theorem loadProgram_segment_ne {s : State} {b id : Word} {m : Memory} (h : loadProgram s b = .ok m) (hid : id ≠ 0#64) :
    m.segment id = s.mem.segment id := by
  unfold loadProgram at h
  split at h
  · cases h
    rfl
  · exact duplicate_segment_ne h hid

/-- Settles O36: Alloc, Release and LP each leave every other segment, and Alloc's id was not live. -/
theorem allocatorInstructionsLeaveOtherSegments : Obligations.AllocatorInstructionsLeaveOtherSegments := by
  intro i s t target hs h hrun htarget
  have he := effect_of_not_faulted h hrun
  obtain ⟨rb, rc, rfl, -, rfl⟩ | ⟨rc, rfl, rfl⟩ | ⟨rb, rc, rfl, rfl⟩ := htarget
  · have hm := he.mapseg_alloc
    refine ⟨fun id hid => Memory.observe_congr (alloc_segment_ne hm hid), fun _ => ⟨alloc_not_live hs.allocator hm, ?_⟩⟩
    exact (Memory.live_iff_segment _ _).2 ⟨_, alloc_segment_self hm⟩
  · exact ⟨fun id hid => Memory.observe_congr (release_segment_ne he.unmapseg_release hid), nofun⟩
  · exact ⟨fun id hid => Memory.observe_congr (loadProgram_segment_ne he.lp_loadProgram hid), nofun⟩

/-- Settles O35: a fault touches nothing but the run state and the record, and a completed Store is one MemWrite. -/
theorem storeLeavesEveryOtherAddress : Obligations.StoreLeavesEveryOtherAddress := by
  intro s t ra rb rc id k h haddr
  obtain ⟨c, rfl⟩ | he := exec_cases h
  · exact ⟨fun _ _ _ _ => rfl, fun _ => rfl, rfl, rfl, fun _ => ⟨rfl, rfl⟩, rfl, rfl⟩
  · cases he with
    | store hr ha hb hc hm =>
      rw [haddr] at hm
      obtain ⟨hfree, hnext⟩ := memWrite_bookkeeping hm
      exact ⟨fun _ _ _ hne => memRead_memWrite_ne hm hne, memWrite_lengthOf hm, hfree, hnext, fun _ => ⟨rfl, rfl⟩, rfl, rfl⟩

/-- While running, a fetched cell is decoded and executed (R72). -/
theorem step_of_fetchCell {s : State} {cell : Word} (hrun : s.run = .running) (h : s.fetchCell = .ok cell) :
    step s = exec (decode (instrWordOf cell)) s := by
  simp [step, hrun, h]

/-- Settles O41: the next fetch reads the word the Store wrote. -/
theorem storeToTheNextIndexIsExecutedNext : Obligations.StoreToTheNextIndexIsExecutedNext := by
  intro s t ra rb rc _ h hrun haddr
  cases effect_of_not_faulted h (by simp [hrun]) with
  | @store _ _ _ _ m hr ha hb hc hm =>
    rw [haddr] at hm
    have hfetch : ({ s with mem := m } : State).advance.fetchCell = .ok (s.reg rc) := memRead_memWrite_self hm
    rw [step_of_fetchCell hrun hfetch, instrWordOf_eq]

/-! ## The operations by themselves -/

/-- Settles O45, one case of the address at a time. -/
theorem memoryReadsWhatWasWritten : Obligations.MemoryReadsWhatWasWritten := by
  intro a b m id i v
  refine ⟨fun hlive => ⟨memRead_of_not_live hlive, memWrite_of_not_live hlive⟩, fun n hn hi => ?_, fun n hn hi => ?_⟩
  · obtain ⟨g, hg, rfl⟩ := Memory.lengthOf_eq_some_iff.1 hn
    exact ⟨memRead_of_length_le hg hi, memWrite_of_length_le hg hi⟩
  · obtain ⟨g, hg, rfl⟩ := Memory.lengthOf_eq_some_iff.1 hn
    have hw : memWrite a m id i v = .ok (m.setSegment id (g.put i.toNat v)) := memWrite_of_lt hg hi
    exact ⟨⟨_, memRead_of_lt hg hi⟩, _, hw, memRead_memWrite_self hw, memWrite_lengthOf hw,
      fun _ _ hne => memRead_memWrite_ne hw hne⟩

/-- Segments that are equal data read alike, whatever their ids. -/
theorem memRead_ok_iff_of_segment_eq {a : Access} {m m' : Memory} {s s' i v : Word} (h : m'.segment s' = m.segment s) :
    memRead a m' s' i = .ok v ↔ memRead a m s i = .ok v := by
  rw [memRead_ok_iff, memRead_ok_iff, h]

/-- Settles O46: the target becomes the source's data, and a later write reaches only the segment it names. -/
theorem duplicateCopiesASnapshot : Obligations.DuplicateCopiesASnapshot := by
  intro c m f t
  refine ⟨duplicate_of_source_not_live, fun hf ht => ?_, fun n hn ht hc => ?_, fun n hn ht hc => ?_⟩
  · obtain ⟨g, hg⟩ := (m.live_iff_segment f).1 hf
    exact duplicate_of_target_not_live hg ht
  · obtain ⟨g, hg, rfl⟩ := Memory.lengthOf_eq_some_iff.1 hn
    exact duplicate_of_not_admitted hg ht hc
  · obtain ⟨g, hg, rfl⟩ := Memory.lengthOf_eq_some_iff.1 hn
    have hd : duplicate c m f t = .ok (m.setSegment t g) := duplicate_ok_iff.2 ⟨g, hg, ht, hc, rfl⟩
    have hother : ∀ id, id ≠ t → SameSegment m (m.setSegment t g) id := fun id hid =>
      (Memory.observe_congr (duplicate_segment_ne hd hid)).1
    have hsame : f = t → ∀ id, SameSegment m (m.setSegment t g) id := by
      rintro rfl id
      by_cases hid : id = f
      · subst hid
        exact (Memory.observe_congr (duplicate_segment_self hd)).1
      · exact hother id hid
    exact ⟨_, hd, Memory.lengthOf_eq_some_iff.2 ⟨g, m.segment_setSegment_self t g, rfl⟩,
      fun _ _ _ => memRead_ok_iff_of_segment_eq (duplicate_segment_self hd), hother, hsame,
      fun _ _ _ _ _ hne hw => memRead_congr (memWrite_segment_ne hw hne.symm),
      fun _ _ _ _ _ hne hw => memRead_congr (memWrite_segment_ne hw hne)⟩

/-- Settles O47: Release pushes the id, and Alloc pops it for a zeroed segment. -/
theorem releasedIdIsReusedZeroed : Obligations.ReleasedIdIsReusedZeroed := by
  intro c m m' id n hr hn hc
  obtain ⟨-, rfl⟩ := release_ok_iff.1 hr
  have ha := alloc_of_pool (rest := m.free) hn hc rfl
  exact ⟨_, ha, Memory.live_setSegment_self _ _ _, rfl, rfl, fun _ _ hi => memRead_of_lt (alloc_segment_self ha) hi⟩

/-! ## Canonical data are determined by what they answer -/

/-- A canonical list's entries are what lookup finds. -/
theorem mem_iff_assocFind {α : Type} {l : List (Nat × α)} (hl : RisingKeys l) {k : Nat} {v : α} :
    (k, v) ∈ l ↔ assocFind l k = some v :=
  ⟨assocFind_of_mem hl, mem_of_assocFind⟩

theorem nodup_of_risingKeys {α : Type} {l : List (Nat × α)} (hl : RisingKeys l) : l.Nodup :=
  List.Nodup.of_map Prod.fst (hl.imp Nat.ne_of_lt)

/-- Canonical lists that answer every lookup alike have the same entries, in the one order their keys allow. -/
theorem eq_of_assocFind_eq {α : Type} {l l' : List (Nat × α)} (hl : RisingKeys l) (hl' : RisingKeys l')
    (h : ∀ k, assocFind l k = assocFind l' k) : l = l' := by
  have hmem : ∀ p, p ∈ l ↔ p ∈ l' := fun p => by rw [mem_iff_assocFind hl, mem_iff_assocFind hl', h]
  have hperm : l.Perm l' := (List.perm_ext_iff_of_nodup (nodup_of_risingKeys hl) (nodup_of_risingKeys hl')).2 hmem
  exact hperm.eq_of_pairwise (le := fun p q => p.1 < q.1) (fun _ _ _ _ hpq hqp => absurd hqp (Nat.lt_asymm hpq))
    (List.pairwise_map.1 hl) (List.pairwise_map.1 hl')

/-- A canonical segment lists exactly its cells that are not 0 (log 11). -/
theorem Segment.assocFind_cells {g : Segment} (hg : g.wf) (i : Nat) :
    assocFind g.cells i = if g.get i = 0#64 then none else some (g.get i) := by
  cases h : assocFind g.cells i with
  | none => simp [Segment.get, h]
  | some v =>
    obtain ⟨-, hcells, -⟩ := hg
    have hv : v ≠ 0#64 := (hcells _ (mem_of_assocFind h)).2
    simp [Segment.get, h, hv]

/-- A canonical segment lists no cell past its end. -/
theorem Segment.get_of_length_le {g : Segment} (hg : g.wf) {i : Nat} (hi : g.length ≤ i) : g.get i = 0#64 := by
  cases h : assocFind g.cells i with
  | none => simp [Segment.get, h]
  | some v =>
    obtain ⟨-, hcells, -⟩ := hg
    exact absurd (hcells _ (mem_of_assocFind h)).1 (Nat.not_lt.2 hi)

theorem Segment.ext_of_wf {g g' : Segment} (hg : g.wf) (hg' : g'.wf) (hlen : g.length = g'.length)
    (hget : ∀ i, i < g.length → g.get i = g'.get i) : g = g' := by
  have hall : ∀ i, g.get i = g'.get i := fun i => by
    by_cases hi : i < g.length
    · exact hget i hi
    · rw [g.get_of_length_le hg (Nat.not_lt.1 hi), g'.get_of_length_le hg' (hlen ▸ Nat.not_lt.1 hi)]
  have hcells : g.cells = g'.cells :=
    eq_of_assocFind_eq hg.1 hg'.1 fun i => by rw [g.assocFind_cells hg, g'.assocFind_cells hg', hall i]
  show Segment.mk g.length g.cells = Segment.mk g'.length g'.cells
  rw [hlen, hcells]

/-- Canonical memories with the same length and the same answers at an id hold the same segment there. -/
theorem Memory.segment_eq_of_reads {m m' : Memory} (hm : m.wf) (hm' : m'.wf) {id : Word}
    (hlen : m.lengthOf id = m'.lengthOf id) (hread : ∀ i, memRead .load m id i = memRead .load m' id i) :
    m.segment id = m'.segment id := by
  cases h : m.segment id with
  | none =>
    have hnone : m'.lengthOf id = none := by rw [← hlen, Memory.lengthOf, h, Option.map_none]
    exact (Option.map_eq_none_iff.1 hnone).symm
  | some g =>
    obtain ⟨g', h', hlen'⟩ := Memory.lengthOf_eq_some_iff.1 (hlen.symm.trans (Memory.lengthOf_eq_some_iff.2 ⟨g, h, rfl⟩))
    have hwf := Memory.segment_wf hm h
    have ⟨_, _, hlt⟩ := hwf
    have hget : ∀ i, i < g.length → g.get i = g'.get i := fun i hi => by
      have hword : (BitVec.ofNat 64 i).toNat = i := toNat_ofNat_of_lt_wordLimit (hi.trans hlt)
      have hread := hread (BitVec.ofNat 64 i)
      rw [memRead_of_lt h (hword.symm ▸ hi), memRead_of_lt h' (hword.symm ▸ hlen'.symm ▸ hi), hword] at hread
      exact Except.ok.inj hread
    rw [h', Segment.ext_of_wf hwf (Memory.segment_wf hm' h') hlen'.symm hget]

/-- No key past the words is listed in a canonical memory. -/
theorem Memory.assocFind_segs_of_wordLimit_le {m : Memory} (hm : m.wf) {k : Nat} (hk : wordLimit ≤ k) :
    assocFind m.segs k = none := by
  cases h : assocFind m.segs k with
  | none => rfl
  | some g => exact absurd (hm.2 _ (mem_of_assocFind h)).1 (Nat.not_lt.2 hk)

theorem Memory.segs_eq_of_segment_eq {m m' : Memory} (hm : m.wf) (hm' : m'.wf)
    (h : ∀ id, m.segment id = m'.segment id) : m.segs = m'.segs := by
  refine eq_of_assocFind_eq hm.1 hm'.1 fun k => ?_
  by_cases hk : k < wordLimit
  · have hseg := h (BitVec.ofNat 64 k)
    rwa [Memory.segment, Memory.segment, toNat_ofNat_of_lt_wordLimit hk] at hseg
  · rw [m.assocFind_segs_of_wordLimit_le hm (Nat.not_lt.1 hk), m'.assocFind_segs_of_wordLimit_le hm' (Nat.not_lt.1 hk)]

/-- Settles O48: reads and lengths determine each segment, the segments determine the canonical map. -/
theorem canonicalMemoriesThatReadAlikeAreEqual : Obligations.CanonicalMemoriesThatReadAlikeAreEqual := by
  intro m m' hm hm' hlen hread hfree hnext
  have hsegs : m.segs = m'.segs := Memory.segs_eq_of_segment_eq hm hm' fun id =>
    Memory.segment_eq_of_reads hm hm' (hlen id) (hread .load id)
  show Memory.mk m.segs m.free m.nextId = Memory.mk m'.segs m'.free m'.nextId
  rw [hsegs, hfree, hnext]

end Sys2Proof.Machine

/-! The statements of 30_encoding.md: the codec's round trips, the encoders' words, and the disassembler read back by the
assembler. -/

/-! ## Decoding what was packed -/

namespace Sys2Proof

/-- A packed word with a defined opcode decodes to that opcode with the word's fields (R63, R66). -/
theorem decode_packThreeRegister {n ra rb rc : Nat} {op : Opcode} (hop : opcodeOfNumber n = .defined op) (hn : n < 16)
    (ha : ra < 8) (hb : rb < 8) (hc : rc < 8) :
    decode (packThreeRegister n ra rb rc) = op.operands (packThreeRegister n ra rb rc) :=
  decode_of_defined ((packThreeRegister_fields hn ha hb hc).1.symm ▸ hop)

theorem decode_packImmediate {rd imm : Nat} (hd : rd < 8) (hi : imm < 2 ^ 25) :
    decode (packImmediate 13 rd imm) = .lv rd imm := by
  obtain ⟨hop, hrd, himm⟩ := packImmediate_fields (op := 13) (by decide) hd hi
  rw [decode_of_defined (op := .lv) (by rw [hop]; rfl), Opcode.operands, hrd, himm]

theorem decode_of_opcodeBits_eq_14 {w : InstrWord} (h : opcodeBits w = 14) : decode w = .invalid14 (belowOpcode w) := by
  simp [decode, decodeOpcode, h, opcodeOfNumber]

theorem decode_of_opcodeBits_eq_15 {w : InstrWord} (h : opcodeBits w = 15) : decode w = .invalid15 (belowOpcode w) := by
  simp [decode, decodeOpcode, h, opcodeOfNumber]

/-- The decoder undoes the encoder, form by form (R66). -/
theorem decode_encode {i : Instr} (h : i.wellFormed = true) : decode (encode i) = i := by
  obtain ⟨hr, hc⟩ := Laws.OpcodeField.bounds h
  cases i
  case cmov ra rb rc | load ra rb rc | store ra rb rc | add ra rb rc | mul ra rb rc | div ra rb rc | nand ra rb rc =>
    simp only [Instr.registers, List.forall_mem_cons] at hr
    obtain ⟨ha, hb, hc, -⟩ := hr
    refine (decode_packThreeRegister rfl (by decide) ha hb hc).trans ?_
    simp [Opcode.operands, packThreeRegister_fields, ha, hb, hc]
  case halt => decide
  case mapseg rb rc | lp rb rc =>
    simp only [Instr.registers, List.forall_mem_cons] at hr
    obtain ⟨hb, hc, -⟩ := hr
    refine (decode_packThreeRegister rfl (by decide) (by decide) hb hc).trans ?_
    simp [Opcode.operands, packThreeRegister_fields, hb, hc]
  case unmapseg rc | out rc | input rc =>
    have hc : rc < 8 := hr rc (by simp [Instr.registers])
    refine (decode_packThreeRegister rfl (by decide) (by decide) (by decide) hc).trans ?_
    simp [Opcode.operands, packThreeRegister_fields, hc]
  case lv rd imm => exact decode_packImmediate (hr rd (by simp [Instr.registers])) (of_decide_eq_true hc)
  case invalid14 rest =>
    obtain ⟨hop, hrest⟩ := packInvalid_fields (op := 14) (by decide) (of_decide_eq_true hc)
    exact (decode_of_opcodeBits_eq_14 hop).trans (congrArg _ hrest)
  case invalid15 rest =>
    obtain ⟨hop, hrest⟩ := packInvalid_fields (op := 15) (by decide) (of_decide_eq_true hc)
    exact (decode_of_opcodeBits_eq_15 hop).trans (congrArg _ hrest)

/-! ## What a word decodes to -/

theorem fieldImm_lt (w : InstrWord) : fieldImm w < 2 ^ 25 := (w.extractLsb' 0 25).isLt
theorem belowOpcode_lt (w : InstrWord) : belowOpcode w < 2 ^ 28 := (w.extractLsb' 0 28).isLt

/-- The constant an opcode takes from a word is the 25-bit field (R56). -/
theorem operands_constantFits (op : Opcode) (w : InstrWord) : (op.operands w).constantFits = true := by
  cases op <;> simp [Opcode.operands, Instr.constantFits, fieldImm_lt]

/-- The constants a word holds fit the fields they come from (R56, R61). -/
theorem decode_constantFits (w : InstrWord) : (decode w).constantFits = true := by
  unfold decode
  split
  · next op _ => exact operands_constantFits op w
  · split
    · exact decide_eq_true (belowOpcode_lt w)
    · exact decide_eq_true (belowOpcode_lt w)

theorem decode_wellFormed (w : InstrWord) : (decode w).wellFormed = true := by
  have hr := decode_registers_lt w
  simpa [Instr.wellFormed, decode_constantFits w] using hr

/-- The opcode, rd and immediate fields make up a word (R56). -/
theorem packImmediate_fields_of_word (w : InstrWord) : packImmediate (opcodeBits w) (fieldRd w) (fieldImm w) = w := by
  apply BitVec.eq_of_toNat_eq
  rw [packImmediate_toNat (opcodeBits_lt w) (fieldRd_lt w) (fieldImm_lt w), opcodeBits_eq, fieldRd_eq, fieldImm_eq]
  omega

/-- The opcode field and the 28 bits below it make up a word (R61). -/
theorem packInvalid_fields_of_word (w : InstrWord) : packInvalid (opcodeBits w) (belowOpcode w) = w := by
  apply BitVec.eq_of_toNat_eq
  rw [packInvalid_toNat (opcodeBits_lt w) (belowOpcode_lt w), opcodeBits_eq, belowOpcode_eq]
  omega

/-- LV and the invalid opcodes use every bit, so decoding loses none (R56, R61). -/
theorem encode_decode_of_thirteen_le {w : InstrWord} (h : 13 ≤ opcodeBits w) : encode (decode w) = w := by
  have hlt := opcodeBits_lt w
  obtain h13 | h14 | h15 : opcodeBits w = 13 ∨ opcodeBits w = 14 ∨ opcodeBits w = 15 := by omega
  · rw [decode_of_defined (op := .lv) (by rw [h13]; rfl)]
    simpa only [Opcode.operands, encode, h13] using packImmediate_fields_of_word w
  · rw [decode_of_opcodeBits_eq_14 h14]
    simpa only [encode, h14] using packInvalid_fields_of_word w
  · rw [decode_of_opcodeBits_eq_15 h15]
    simpa only [encode, h15] using packInvalid_fields_of_word w

/-! ## The encoders -/

/-- The disjunction of a multiple of `2 ^ k` with a number of `k` bits is their sum. -/
theorem or_eq_add_of_dvd {a b k : Nat} (ha : 2 ^ k ∣ a) (hb : b < 2 ^ k) : a ||| b = a + b := by
  obtain ⟨q, rfl⟩ := ha
  exact (Nat.two_pow_add_eq_or_of_lt hb q).symm

/-- A shift that loses no bit multiplies. -/
theorem toNat_shiftLeft_of_lt {x k : Nat} (h : x * 2 ^ k < 2 ^ 32) : (BitVec.ofNat 32 x <<< k).toNat = x * 2 ^ k := by
  have hx : x < 2 ^ 32 := (Nat.le_mul_of_pos_right x (Nat.two_pow_pos k)).trans_lt h
  rw [BitVec.toNat_shiftLeft, BitVec.toNat_ofNat, Nat.mod_eq_of_lt hx, Nat.shiftLeft_eq, Nat.mod_eq_of_lt h]

/-- The word R64 writes. -/
theorem packThreeRegister_eq_or {op ra rb rc : Nat} (ho : op < 16) (ha : ra < 8) (hb : rb < 8) (hc : rc < 8) :
    packThreeRegister op ra rb rc =
      (BitVec.ofNat 32 op <<< 28) ||| (BitVec.ofNat 32 ra <<< 6) ||| (BitVec.ofNat 32 rb <<< 3) ||| BitVec.ofNat 32 rc := by
  apply BitVec.eq_of_toNat_eq
  rw [packThreeRegister_toNat ho ha hb hc, BitVec.toNat_or, BitVec.toNat_or, BitVec.toNat_or,
    toNat_shiftLeft_of_lt (by omega), toNat_shiftLeft_of_lt (by omega), toNat_shiftLeft_of_lt (by omega),
    BitVec.toNat_ofNat, Nat.mod_eq_of_lt (by omega), or_eq_add_of_dvd (a := op * 2 ^ 28) (k := 28) (by omega) (by omega),
    or_eq_add_of_dvd (a := op * 2 ^ 28 + ra * 2 ^ 6) (k := 6) (by omega) (by omega),
    or_eq_add_of_dvd (k := 3) (by omega) (by omega)]
  omega

/-- The word R65 writes. -/
theorem packImmediate_eq_or {op rd imm : Nat} (ho : op < 16) (hd : rd < 8) (hi : imm < 2 ^ 25) :
    packImmediate op rd imm = (BitVec.ofNat 32 op <<< 28) ||| (BitVec.ofNat 32 rd <<< 25) ||| BitVec.ofNat 32 imm := by
  apply BitVec.eq_of_toNat_eq
  rw [packImmediate_toNat ho hd hi, BitVec.toNat_or, BitVec.toNat_or, toNat_shiftLeft_of_lt (by omega),
    toNat_shiftLeft_of_lt (by omega), BitVec.toNat_ofNat, Nat.mod_eq_of_lt (by omega),
    or_eq_add_of_dvd (a := op * 2 ^ 28) (k := 28) (by omega) (by omega), or_eq_add_of_dvd (k := 25) (by omega) (by omega)]

/-- The three-register encoder refuses an operand past its range (R64). -/
theorem encodeThreeRegister_of_not_fits {op ra rb rc : Nat} (h : 13 < op ∨ 8 ≤ ra ∨ 8 ≤ rb ∨ 8 ≤ rc) :
    encodeThreeRegister op ra rb rc = .error .invalidOperand :=
  if_neg (show ¬(op < 14 ∧ ra < 8 ∧ rb < 8 ∧ rc < 8) by omega)

/-- The immediate-load encoder refuses an operand past its range (R65). -/
theorem encodeImmediate_of_not_fits {op rd value : Nat} (h : 13 < op ∨ 8 ≤ rd ∨ 2 ^ 25 ≤ value) :
    encodeImmediate op rd value = .error .invalidOperand :=
  if_neg (show ¬(op < 14 ∧ rd < 8 ∧ value < 2 ^ 25) by omega)

/-- The numbers 0 to 13 name an opcode (R60). -/
theorem opcodeOfNumber_ne_invalid {n : Nat} (h : n ≤ 13) : opcodeOfNumber n ≠ .invalid := by
  interval_cases n <;> decide

end Sys2Proof

namespace Sys2Proof.Machine

/-- Settles O52: each form's fields are what its packing put there. -/
theorem decodeOfEncodeIsTheInstruction : Obligations.DecodeOfEncodeIsTheInstruction := fun _ => decode_encode

/-- The opcode field `w[31:28]` (R54). -/
theorem fieldAt_opcode (w : InstrWord) : fieldAt w 31 28 = opcodeBits w := by
  have h : w.toNat < 2 ^ 32 := w.isLt
  rw [opcodeBits_eq, fieldAt]
  omega

/-- Settles O53: the decoder's fields have the widths the encoder admits, and LV and the invalid words leave no bit out. -/
theorem everyWordDecodesToAWellFormedInstruction : Obligations.EveryWordDecodesToAWellFormedInstruction :=
  fun w => ⟨decode_wellFormed w, decode_encode (decode_wellFormed w), fun h =>
    encode_decode_of_thirteen_le (fieldAt_opcode w ▸ h)⟩

/-! ## Unused bits -/

theorem fieldRa_eq_fieldAt (w : InstrWord) : fieldRa w = fieldAt w 8 0 / 64 := by
  rw [fieldRa_eq, fieldAt]
  omega

theorem fieldRb_eq_fieldAt (w : InstrWord) : fieldRb w = fieldAt w 5 0 / 8 := by
  rw [fieldRb_eq, fieldAt]
  omega

theorem fieldRc_eq_fieldAt (w : InstrWord) : fieldRc w = fieldAt w 2 0 := by
  rw [fieldRc_eq, fieldAt]
  omega

section
variable {w w' : InstrWord}

/-- The low bits of a field that two words share. -/
theorem fieldAt_low_congr {hi lo : Nat} (hle : lo ≤ hi) (h : fieldAt w hi 0 = fieldAt w' hi 0) :
    fieldAt w lo 0 = fieldAt w' lo 0 := by
  have hdvd : 2 ^ (lo + 1) ∣ 2 ^ (hi + 1) := Nat.pow_dvd_pow 2 (by omega)
  simp only [fieldAt, Nat.pow_zero, Nat.div_one, Nat.sub_zero] at h ⊢
  rw [← Nat.mod_mod_of_dvd w.toNat hdvd, h, Nat.mod_mod_of_dvd _ hdvd]

/-- Words with one defined opcode decode alike when the opcode takes the same operands from both (R58). -/
theorem decode_congr {n : Nat} {op : Opcode} (hop : opcodeOfNumber n = .defined op) (h : fieldAt w 31 28 = n)
    (h' : fieldAt w' 31 28 = n) (hoperands : op.operands w = op.operands w') : decode w = decode w' := by
  rw [fieldAt_opcode] at h h'
  rw [decode_of_defined (h.symm ▸ hop), decode_of_defined (h'.symm ▸ hop), hoperands]

end

/-- Settles O54: the operands of an opcode are functions of the fields it uses. -/
theorem unusedBitsAreIgnored : Obligations.UnusedBitsAreIgnored := by
  intro w w' hop
  refine ⟨fun hn h => ?_, fun hn => ?_, fun hn h => ?_, fun hn h => ?_⟩
  · have hra : fieldRa w = fieldRa w' := by rw [fieldRa_eq_fieldAt, h, fieldRa_eq_fieldAt]
    have hrb : fieldRb w = fieldRb w' := by
      rw [fieldRb_eq_fieldAt, fieldAt_low_congr (by decide) h, fieldRb_eq_fieldAt]
    have hrc : fieldRc w = fieldRc w' := by
      rw [fieldRc_eq_fieldAt, fieldAt_low_congr (by decide) h, fieldRc_eq_fieldAt]
    generalize hfield : fieldAt w 31 28 = n at hn hop
    interval_cases n <;> exact decode_congr rfl hfield hop.symm (by simp only [Opcode.operands, hra, hrb, hrc])
  · exact decode_congr (op := .halt) rfl hn (hop ▸ hn) rfl
  · have hrb : fieldRb w = fieldRb w' := by rw [fieldRb_eq_fieldAt, h, fieldRb_eq_fieldAt]
    have hrc : fieldRc w = fieldRc w' := by
      rw [fieldRc_eq_fieldAt, fieldAt_low_congr (by decide) h, fieldRc_eq_fieldAt]
    obtain hn | hn := hn
    · exact decode_congr (op := .mapseg) rfl hn (hop ▸ hn) (by simp only [Opcode.operands, hrb, hrc])
    · exact decode_congr (op := .lp) rfl hn (hop ▸ hn) (by simp only [Opcode.operands, hrb, hrc])
  · have hrc : fieldRc w = fieldRc w' := by rw [fieldRc_eq_fieldAt, h, fieldRc_eq_fieldAt]
    obtain hn | hn | hn := hn
    · exact decode_congr (op := .unmapseg) rfl hn (hop ▸ hn) (by simp only [Opcode.operands, hrc])
    · exact decode_congr (op := .out) rfl hn (hop ▸ hn) (by simp only [Opcode.operands, hrc])
    · exact decode_congr (op := .input) rfl hn (hop ▸ hn) (by simp only [Opcode.operands, hrc])

/-! ## The encoders' words and round trips -/

/-- Settles O55: the packed word is the disjunction of shifted fields, and the check refuses exactly the rest. -/
theorem encodeThreeRegisterBuildsTheWord : Obligations.EncodeThreeRegisterBuildsTheWord := by
  refine fun op ra rb rc => ⟨fun ho ha hb hc => ?_, encodeThreeRegister_of_not_fits⟩
  rw [encodeThreeRegister_of_fits ho ha hb hc, packThreeRegister_eq_or (by omega) ha hb hc]

/-- Settles O56: the packed word is the disjunction of shifted fields, and the check refuses exactly the rest. -/
theorem encodeImmediateBuildsTheWord : Obligations.EncodeImmediateBuildsTheWord := by
  refine fun op rd value => ⟨fun ho hd hv => ?_, encodeImmediate_of_not_fits⟩
  rw [encodeImmediate_of_fits ho hd hv, packImmediate_eq_or (by omega) hd hv]

/-- Settles O57: the fields of the packed words. -/
theorem encodersAndFieldDecodersAgree : Obligations.EncodersAndFieldDecodersAgree := by
  constructor
  · intro op ra rb rc ho ha hb hc
    obtain ⟨hop, hra, hrb, hrc⟩ := packThreeRegister_fields (op := op) (by omega) ha hb hc
    refine ⟨_, encodeThreeRegister_of_fits ho ha hb hc, ?_, congrArg opcodeOfNumber hop, ?_⟩
    · rw [decodeThreeRegister, hra, hrb, hrc]
    · rw [decodeOpcode, hop]
      exact opcodeOfNumber_ne_invalid ho
  · intro reg lv hr hv
    obtain ⟨hop, hrd, himm⟩ := packImmediate_fields (op := 13) (by decide) hr hv
    refine ⟨_, encodeImmediate_of_fits (by decide) hr hv, ?_, congrArg opcodeOfNumber hop⟩
    rw [decodeImmediate, hrd, himm]

/-! ## The assembler reads back what the disassembler prints -/

/-- None of the characters a line is cut at (R69). A `Bool`, so that closed tokens are checked by evaluation. -/
def isTokenChar (c : Char) : Bool := !isBlank c && c != ',' && c != ';'

theorem isTokenChar_iff {c : Char} : isTokenChar c = true ↔ isBlank c = false ∧ c ≠ ',' ∧ c ≠ ';' := by
  simp [isTokenChar, and_assoc]

/-- A mnemonic or an operand. -/
abbrev IsToken (l : List Char) : Prop := l ≠ [] ∧ l.all isTokenChar = true

theorem IsToken.of_mem {l : List Char} (h : IsToken l) {c : Char} (hc : c ∈ l) : isBlank c = false ∧ c ≠ ',' ∧ c ≠ ';' :=
  isTokenChar_iff.1 (List.all_eq_true.1 h.2 c hc)

/-- Text with a blank at neither end. -/
structure IsTrimmed (l : List Char) : Prop where
  ne_nil : l ≠ []
  head   : isBlank (l.head ne_nil) = false
  last   : isBlank (l.getLast ne_nil) = false

theorem IsToken.isTrimmed {l : List Char} (h : IsToken l) : IsTrimmed l where
  ne_nil := h.1
  head   := (h.of_mem (List.head_mem _)).1
  last   := (h.of_mem (List.getLast_mem _)).1

theorem IsTrimmed.append {l r : List Char} (hl : IsTrimmed l) (hr : IsTrimmed r) (m : List Char) : IsTrimmed (l ++ (m ++ r)) where
  ne_nil := List.append_ne_nil_of_left_ne_nil hl.ne_nil _
  head   := by rw [List.head_append_of_ne_nil hl.ne_nil]; exact hl.head
  last   := by
    rw [List.getLast_append_of_ne_nil _ (List.append_ne_nil_of_right_ne_nil _ hr.ne_nil),
      List.getLast_append_of_ne_nil _ hr.ne_nil]
    exact hr.last

theorem trimBlanks_of_isTrimmed {l : List Char} (h : IsTrimmed l) : trimBlanks l = l := by
  have hfront : l.dropWhile isBlank = l :=
    List.dropWhile_eq_self_iff.2 fun hl => by simpa [List.head_eq_getElem] using h.head
  have hback : l.rdropWhile isBlank = l := List.rdropWhile_eq_self_iff.2 fun _ => by simp [h.last]
  rw [trimBlanks, hfront]
  exact hback

theorem trimBlanks_cons_space (l : List Char) : trimBlanks (' ' :: l) = trimBlanks l := by
  rw [trimBlanks, List.dropWhile_cons_of_pos (by decide), trimBlanks]

/-- A text without a semicolon has no comment. -/
theorem stripComment_eq_self {l : List Char} (h : ∀ c ∈ l, c ≠ ';') : stripComment l = l :=
  List.takeWhile_eq_self_iff.2 fun c hc => bne_iff_ne.2 (h c hc)

theorem splitCommas_of_no_comma {l : List Char} (h : ∀ c ∈ l, c ≠ ',') : splitCommas l = [l] := by
  induction l with
  | nil => rfl
  | cons c rest ih =>
    obtain ⟨hc, hrest⟩ := List.forall_mem_cons.1 h
    simp [splitCommas, hc, ih hrest]

theorem splitCommas_append_comma {l : List Char} (h : ∀ c ∈ l, c ≠ ',') (r : List Char) :
    splitCommas (l ++ ',' :: r) = l :: splitCommas r := by
  induction l with
  | nil => simp [splitCommas]
  | cons c rest ih =>
    obtain ⟨hc, hrest⟩ := List.forall_mem_cons.1 h
    simp [splitCommas, hc, ih hrest]

theorem space_cons_no_comma {l : List Char} (h : IsToken l) : ∀ c ∈ ' ' :: l, c ≠ ',' :=
  List.forall_mem_cons.2 ⟨by decide, fun c hc => (h.of_mem hc).2.1⟩

theorem operandText_cons_cons (a b : String) (rest : List String) :
    (operandText (a :: b :: rest)).toList = a.toList ++ ([',', ' '] ++ (operandText (b :: rest)).toList) := by
  rw [operandText, String.toList_append, String.toList_append, List.append_assoc]
  rfl

section
variable {operands : List String} (h : ∀ o ∈ operands, IsToken o.toList)
include h

theorem operandText_isTrimmed (hne : operands ≠ []) : IsTrimmed (operandText operands).toList := by
  fun_induction operandText with
  | case1 => contradiction
  | case2 a => exact (h a (by simp)).isTrimmed
  | case3 a b rest ih =>
    obtain ⟨ha, hrest⟩ := List.forall_mem_cons.1 h
    rw [← operandText, operandText_cons_cons]
    exact ha.isTrimmed.append (ih hrest (by simp)) _

theorem operandText_no_semicolon : ∀ c ∈ (operandText operands).toList, c ≠ ';' := by
  fun_induction operandText with
  | case1 => simp
  | case2 a => exact fun c hc => ((h a (by simp)).of_mem hc).2.2
  | case3 a b rest ih =>
    obtain ⟨ha, hrest⟩ := List.forall_mem_cons.1 h
    rw [← operandText, operandText_cons_cons]
    exact List.forall_mem_append.2 ⟨fun c hc => (ha.of_mem hc).2.2, List.forall_mem_append.2 ⟨by simp, ih hrest⟩⟩

/-- The pieces between the commas, without their blanks, are the operands. -/
theorem splitCommas_operandText (hne : operands ≠ []) :
    (splitCommas (' ' :: (operandText operands).toList)).map trimBlanks = operands.map String.toList := by
  fun_induction operandText with
  | case1 => contradiction
  | case2 a =>
    have ha := h a (by simp)
    simp [splitCommas_of_no_comma (space_cons_no_comma ha), trimBlanks_cons_space, trimBlanks_of_isTrimmed ha.isTrimmed]
  | case3 a b rest ih =>
    obtain ⟨ha, hrest⟩ := List.forall_mem_cons.1 h
    have hsplit := splitCommas_append_comma (space_cons_no_comma ha) (' ' :: (operandText (b :: rest)).toList)
    rw [← operandText, operandText_cons_cons]
    simp only [List.cons_append, List.nil_append] at hsplit ⊢
    rw [hsplit, List.map_cons, ih hrest (by simp), trimBlanks_cons_space, trimBlanks_of_isTrimmed ha.isTrimmed]
    rfl

theorem operandPieces_operandText (hne : operands ≠ []) :
    operandPieces (' ' :: (operandText operands).toList) = operands.map String.toList := by
  have htrim := operandText_isTrimmed h hne
  rw [operandPieces, trimBlanks_cons_space, trimBlanks_of_isTrimmed htrim, if_neg htrim.ne_nil, splitCommas_operandText h hne]

/-- A line of a mnemonic and operands as R69 writes it assembles as that form. -/
theorem assembleLine_form {mnemonic : String} (hm : IsToken mnemonic.toList) (hne : operands ≠ []) :
    assembleLine (mnemonic ++ " " ++ operandText operands) = assembleForm [] mnemonic (operands.map String.toList) := by
  have htext : (mnemonic ++ " " ++ operandText operands).toList =
      mnemonic.toList ++ ([' '] ++ (operandText operands).toList) := by
    rw [String.toList_append, String.toList_append, List.append_assoc]
    rfl
  have hcomment : ∀ c ∈ mnemonic.toList ++ ([' '] ++ (operandText operands).toList), c ≠ ';' :=
    List.forall_mem_append.2 ⟨fun c hc => (hm.of_mem hc).2.2,
      List.forall_mem_append.2 ⟨by simp, operandText_no_semicolon h⟩⟩
  have hword : ∀ c ∈ mnemonic.toList, (!isBlank c) = true := fun c hc => by simp [(hm.of_mem hc).1]
  rw [assembleLine, htext, stripComment_eq_self hcomment,
    trimBlanks_of_isTrimmed (hm.isTrimmed.append (operandText_isTrimmed h hne) _), assembleStatement,
    List.takeWhile_append_of_pos hword, List.dropWhile_append_of_pos hword, List.singleton_append,
    List.takeWhile_cons_of_neg (by decide), List.dropWhile_cons_of_neg (by decide), List.append_nil, String.ofList_toList,
    operandPieces_operandText h hne]

end

/-! ## The operands -/

theorem registerName_isToken {r : Nat} (h : r < 8) : IsToken (registerName r).toList := by
  interval_cases r <;> decide

theorem parseRegister_registerName {r : Nat} (h : r < 8) : parseRegister (registerName r).toList = some r := by
  interval_cases r <;> decide

theorem parseRegisters_registerNames {rs : List Nat} (h : ∀ r ∈ rs, r < 8) :
    parseRegisters ((rs.map registerName).map String.toList) = some rs := by
  induction rs with
  | nil => rfl
  | cons r rest ih =>
    obtain ⟨hr, hrest⟩ := List.forall_mem_cons.1 h
    simp only [List.map_cons, parseRegisters, parseRegister_registerName hr, ih hrest]

theorem isToken_repr (n : Nat) : IsToken (Nat.repr n).toList := by
  rw [Nat.repr_eq_ofList_toDigits, String.toList_ofList]
  refine ⟨Nat.toDigits_ne_nil, List.all_eq_true.2 fun c hc => ?_⟩
  have hdigit := toDigits_isDigit hc
  have hne : ∀ x : Char, x.isDigit = false → c ≠ x := fun x hx hcx => by simp [← hcx, hdigit] at hx
  exact isTokenChar_iff.2 ⟨by simp [isBlank, hne], hne _ (by decide), hne _ (by decide)⟩

/-- A line of register operands assembles as its mnemonic's form. -/
theorem assembleLine_registerForm {mnemonic : String} {rs : List Nat} (hm : IsToken mnemonic.toList) (hne : rs ≠ [])
    (h : ∀ r ∈ rs, r < 8) :
    assembleLine (registerForm mnemonic rs) = assembleForm [] mnemonic ((rs.map registerName).map String.toList) := by
  refine assembleLine_form (fun o ho => ?_) hm (by simpa using hne)
  obtain ⟨r, hr, rfl⟩ := List.mem_map.1 ho
  exact registerName_isToken (h r hr)

/-- The checked encoder accepts every well-formed instruction with a defined opcode (R64, R65). -/
theorem encodeOrError_of_wellFormed {i : Instr} (h : i.wellFormed = true) (hop : i.opcodeNumber ≤ 13) :
    encodeOrError i = .ok (encode i) := by
  obtain ⟨hr, hc⟩ := Laws.OpcodeField.bounds h
  have hchecked : encodeChecked i = .ok (encode i) := by
    cases i
    case cmov ra rb rc | load ra rb rc | store ra rb rc | add ra rb rc | mul ra rb rc | div ra rb rc | nand ra rb rc =>
      simp only [Instr.registers, List.forall_mem_cons] at hr
      obtain ⟨ha, hb, hc, -⟩ := hr
      exact encodeThreeRegister_of_fits hop ha hb hc
    case halt => rfl
    case mapseg rb rc | lp rb rc =>
      simp only [Instr.registers, List.forall_mem_cons] at hr
      obtain ⟨hb, hc, -⟩ := hr
      exact encodeThreeRegister_of_fits hop (by decide) hb hc
    case unmapseg rc | out rc | input rc =>
      exact encodeThreeRegister_of_fits hop (by decide) (by decide) (hr rc (by simp [Instr.registers]))
    case lv rd imm =>
      exact encodeImmediate_of_fits hop (hr rd (by simp [Instr.registers])) (of_decide_eq_true hc)
    case invalid14 | invalid15 => simp [Instr.opcodeNumber] at hop
  rw [encodeOrError, hchecked]

/-- The text of a well-formed instruction with a defined opcode assembles to its canonical word (R67, R69). -/
theorem assembleLine_instrText {i : Instr} (w : InstrWord) (h : i.wellFormed = true) (hop : i.opcodeNumber ≤ 13) :
    assembleLine (instrText w i) = .ok (encode i) := by
  have hr := (Laws.OpcodeField.bounds h).1
  have hparse := parseRegisters_registerNames hr
  rw [← encodeOrError_of_wellFormed h hop]
  cases i
  case cmov | load | store | add | mul | div | nand | mapseg | lp | unmapseg | out | input =>
    refine (assembleLine_registerForm (by decide) (List.cons_ne_nil _ _) hr).trans ?_
    simp only [assembleForm, threeRegisters, twoRegisters, oneRegister, Instr.registers] at hparse ⊢
    rw [hparse]
  case halt => exact (rfl : assembleLine "halt" = encodeOrError .halt)
  case lv rd imm =>
    have hd : rd < 8 := hr rd (by simp [Instr.registers])
    refine (assembleLine_form (mnemonic := "lv") (operands := [registerName rd, Nat.repr imm]) ?_ (by decide) (by simp)).trans ?_
    · simp only [List.forall_mem_cons]
      exact ⟨registerName_isToken hd, isToken_repr imm, by simp⟩
    · simp only [assembleForm, loadImmediate, List.map_cons, List.map_nil, parseRegister_registerName hd, parseImmediate,
        parseNumber_repr]
  case invalid14 | invalid15 => simp [Instr.opcodeNumber] at hop

/-- The operands of the opcode with number `n` make an instruction of that number (R60). -/
theorem operands_opcodeNumber {n : Nat} {op : Opcode} (hop : opcodeOfNumber n = .defined op) (w : InstrWord) :
    (op.operands w).opcodeNumber = n := by
  unfold opcodeOfNumber at hop
  split at hop <;> cases hop <;> rfl

/-- A word with a defined opcode decodes to an instruction of that opcode (R60, R63). -/
theorem decode_opcodeNumber {w : InstrWord} (h : opcodeBits w ≤ 13) : (decode w).opcodeNumber = opcodeBits w := by
  cases hop : opcodeOfNumber (opcodeBits w) with
  | defined op => rw [decode_of_defined hop, operands_opcodeNumber hop]
  | invalid => exact absurd hop (opcodeOfNumber_ne_invalid h)

/-- Settles O60: what a word decodes to is well-formed, and the text of a well-formed instruction assembles to its word. -/
theorem disassemblyReassembles : Obligations.DisassemblyReassembles := by
  intro w hw
  rw [fieldAt_opcode] at hw
  exact assembleLine_instrText w (decode_wellFormed w) ((decode_opcodeNumber hw).trans_le hw)

/-! ## The spec's examples -/

/-- Settles O58: closed words, evaluated. -/
theorem sampleWordsDecodeAsTheSpecSays : Obligations.SampleWordsDecodeAsTheSpecSays := by
  unfold Obligations.SampleWordsDecodeAsTheSpecSays
  decide

/-- Settles O59: closed words, evaluated. -/
theorem disassemblyOfTheSpecsExamples : Obligations.DisassemblyOfTheSpecsExamples := by
  unfold Obligations.DisassemblyOfTheSpecsExamples
  decide

end Sys2Proof.Machine

/-! The statements of 40_processing_unit.md: the fetch, what a running step executes, where the pc goes, and the precision of a
fault. -/

namespace Sys2Proof

/-! ## The opcode of a decoded word -/

/-- Every word decodes to an instruction of its own opcode, the two invalid ones among them (R60, R61). -/
theorem opcodeNumber_decode (w : InstrWord) : (decode w).opcodeNumber = opcodeBits w := by
  have hlt := opcodeBits_lt w
  obtain h | h | h : opcodeBits w ≤ 13 ∨ opcodeBits w = 14 ∨ opcodeBits w = 15 := by omega
  · exact Machine.decode_opcodeNumber h
  · rw [decode_of_opcodeBits_eq_14 h, h]; rfl
  · rw [decode_of_opcodeBits_eq_15 h, h]; rfl

end Sys2Proof

namespace Sys2Proof.Machine

/-! ## The step while running -/

section Running

variable {s t : State} (hrun : s.run = .running)
include hrun

/-- A fetch that fails faults with no word (R73). -/
theorem step_of_fetchCell_error {c : FaultCause} (h : s.fetchCell = .error c) : step s = .next (s.enterFault none c) := by
  simp [step, hrun, h]

/-- A running step that does not fault fetches a cell and completes the instruction decoded from it (R72). -/
theorem step_running_of_not_faulted (h : step s = .next t) (ht : t.run ≠ .faulted) :
    ∃ cell, s.fetchCell = .ok cell ∧ Effect (decode (instrWordOf cell)) s t := by
  cases hf : s.fetchCell with
  | error c =>
    rw [step_of_fetchCell_error hrun hf] at h
    cases h
    exact absurd rfl ht
  | ok cell =>
    rw [step_of_fetchCell hrun hf] at h
    exact ⟨cell, rfl, effect_of_not_faulted h ht⟩

end Running

/-- The fetched word is the low half of the fetched cell (R53). -/
theorem State.fetchedWord_of_fetchCell {s : State} {cell : Word} (h : s.fetchCell = .ok cell) :
    s.fetchedWord = some (instrWordOf cell) := by
  simp [State.fetchedWord, h]

/-- Settles O7: `step_of_fetchCell`, with the cell's bits 31:0 read as a number. -/
theorem stepExecutesTheFetchedInstruction : Obligations.StepExecutesTheFetchedInstruction := by
  have hstep : ∀ (s : State) (cell : Word), s.run = .running → memRead .fetch s.mem 0#64 s.pc = .ok cell →
      step s = exec (decode (BitVec.ofNat 32 cell.toNat)) s := fun s cell hrun hcell => by
    rw [step_of_fetchCell hrun hcell, instrWordOf_eq]
  exact ⟨hstep, fun s cell i hrun hcell hi _ => hi ▸ hstep s cell hrun hcell⟩

/-- Settles O8: the fetch is a MemRead of segment 0, which checks liveness and then the length. -/
theorem fetchOutsideTheProgramFaults : Obligations.FetchOutsideTheProgramFaults := by
  intro s hrun
  refine ⟨fun hlive => step_of_fetchCell_error hrun (memRead_of_not_live hlive), fun n hn hpc => ?_⟩
  obtain ⟨g, hg, rfl⟩ := Memory.lengthOf_eq_some_iff.1 hn
  exact step_of_fetchCell_error hrun (memRead_of_length_le hg hpc)

/-! ## The run state, the pc and the fault record after an instruction -/

/-- No completion enters Faulted: only the fault entry does (R99). -/
theorem Effect.run_ne_faulted {i : Instr} {s t : State} (h : Effect i s t) (hs : s.run ≠ .faulted) : t.run ≠ .faulted := by
  obtain ht | ⟨-, ht⟩ := h.run_cases
  · rwa [ht]
  · simp [ht]

/-- HALT changes the run state alone (R93). -/
theorem Effect.eq_of_halt {s t : State} (h : Effect .halt s t) : t = { s with run := .halted } := by
  cases h
  rfl

/-- The pc of a completion: kept by HALT, set by LP, kept by an In that waits, and one further after every other (R78). -/
theorem Effect.pc_cases {i : Instr} {s t : State} (h : Effect i s t) :
    (i = .halt ∧ t.pc = s.pc) ∨ (∃ rb rc, i = .lp rb rc ∧ t.pc = s.reg rc) ∨
      ((∃ rc, i = .input rc) ∧ s.input = [] ∧ t = s) ∨
      ((∀ rb rc, i ≠ .lp rb rc) ∧ i ≠ .halt ∧ t.run = s.run ∧ t.pc = s.pc + 1#64) := by
  cases h with
  | halt => exact .inl ⟨rfl, rfl⟩
  | lp => exact .inr (.inl ⟨_, _, rfl, rfl⟩)
  | inputWait _ hinput => exact .inr (.inr (.inl ⟨⟨_, rfl⟩, hinput, rfl⟩))
  | _ => exact .inr (.inr (.inr ⟨nofun, nofun, rfl, rfl⟩))

/-- Settles O31: a state that has become Faulted comes from the fault entry, which is the stated update. -/
theorem faultsArePrecise : Obligations.FaultsArePrecise := by
  intro i s t hs h ht
  obtain ⟨c, rfl⟩ | he := exec_cases h
  · exact ⟨c, rfl⟩
  · exact absurd ht (he.run_ne_faulted hs)

/-- Settles O39: a fault keeps the pc, and `Effect.pc_cases` has the completions. -/
theorem pcMovesByOneExceptLpHaltAndFaults : Obligations.PcMovesByOneExceptLpHaltAndFaults := by
  intro i s t hrun h
  obtain ⟨c, rfl⟩ | he := exec_cases h
  · exact .inl ⟨rfl, rfl⟩
  · have hpc := he.pc_cases
    rw [hrun] at hpc
    exact .inr hpc

/-- Settles O11: of the completions only HALT's is Halted, and only a word of opcode 7 decodes to HALT. -/
theorem onlyHaltHalts : Obligations.OnlyHaltHalts := by
  intro s t hrun h ht
  obtain ⟨cell, hcell, he⟩ := step_running_of_not_faulted hrun h (by simp [ht])
  obtain hkept | ⟨hhalt, -⟩ := he.run_cases
  · simp [ht, hrun] at hkept
  · refine ⟨instrWordOf cell, State.fetchedWord_of_fetchCell hcell, ?_, (hhalt ▸ he).eq_of_halt⟩
    rw [fieldAt_opcode, ← opcodeNumber_decode, hhalt]
    rfl

/-- Settles O44: segment 0 is live because the fetch succeeded, and Alloc answers an id that was not live. -/
theorem mapsegNeverAnswersZero : Obligations.MapsegNeverAnswersZero := by
  intro s t cell rb rc hs hrun hcell hdecode h ht hzero
  obtain ⟨g, hg, -, -⟩ := memRead_ok_iff.1 hcell
  have hlive : s.mem.live 0#64 = true := (s.mem.live_iff_segment 0#64).2 ⟨g, hg⟩
  rw [step_of_fetchCell hrun hcell, instrWordOf_eq, hdecode] at h
  have hnew : s.mem.live (t.reg rb) = false := alloc_not_live hs.allocator (effect_of_not_faulted h ht).mapseg_alloc
  rw [hzero, hlive] at hnew
  cases hnew

end Sys2Proof.Machine

/-! The statements of 41_register_alu.md: CMov, the ALU instructions and LV, each as one equation per case of its outcome. -/

/-! ## Decoding by the fields of the spec's tables -/

namespace Sys2Proof.Machine

theorem fieldAt_ra (w : InstrWord) : fieldAt w 8 6 = fieldRa w := (fieldRa_eq w).symm
theorem fieldAt_rb (w : InstrWord) : fieldAt w 5 3 = fieldRb w := (fieldRb_eq w).symm
theorem fieldAt_rc (w : InstrWord) : fieldAt w 2 0 = fieldRc w := (fieldRc_eq_fieldAt w).symm
theorem fieldAt_rd (w : InstrWord) : fieldAt w 27 25 = fieldRd w := (fieldRd_eq w).symm

theorem fieldAt_imm (w : InstrWord) : fieldAt w 24 0 = fieldImm w := by
  rw [fieldAt, fieldImm_eq, Nat.pow_zero, Nat.div_one]

/-- A word whose field `w[31:28]` names an opcode decodes to that opcode with its operands (R54, R63). -/
theorem decode_of_fieldAt {n : Nat} {op : Opcode} {w : InstrWord} (hop : opcodeOfNumber n = .defined op)
    (h : fieldAt w 31 28 = n) : decode w = op.operands w := by
  rw [fieldAt_opcode] at h
  exact decode_of_defined (h.symm ▸ hop)

/-- An opcode of the three-register form decodes to its instruction of `w[8:6]`, `w[5:3]`, `w[2:0]` (R55). -/
theorem decode_threeRegister {n : Nat} {op : Opcode} {make : Nat → Nat → Nat → Instr} (hop : opcodeOfNumber n = .defined op)
    (hmake : ∀ w, op.operands w = make (fieldRa w) (fieldRb w) (fieldRc w)) (w : InstrWord) (h : fieldAt w 31 28 = n) :
    decode w = make (fieldAt w 8 6) (fieldAt w 5 3) (fieldAt w 2 0) := by
  rw [decode_of_fieldAt hop h, hmake, fieldAt_ra, fieldAt_rb, fieldAt_rc]

/-! ## The common course of a completing instruction -/

/-- A word is determined by its unsigned value (R6). -/
theorem eq_ofNat_of_toNat_eq {v : Word} {n : Nat} (h : v.toNat = n) : v = BitVec.ofNat 64 n := by
  rw [← h, BitVec.ofNat_toNat, BitVec.setWidth_eq]

theorem State.advance_regWrite (s : State) (r : Nat) (v : Word) : (s.regWrite r v).advance = s.afterWriting r v := rfl

theorem registers_lt_of_lt {ra rb rc : Nat} (ha : ra < 8) (hb : rb < 8) (hc : rc < 8) : ∀ q ∈ [ra, rb, rc], q < 8 := by
  simp [ha, hb, hc]

/-- Register numbers in the file pass the check, so what follows it decides the completion (R101). -/
theorem complete_of_registers_fit_ok {s t : State} {rs : List Nat} {f : Unit → Except FaultCause State}
    (hrs : ∀ q ∈ rs, q < 8) (h : f () = .ok t) : complete s (checkRegisters rs >>= f) = .next t := by
  rw [checkRegisters_ok_iff.2 hrs, except_ok_bind, h, complete_ok]

theorem regRead_bind_of_written {α : Type} {s : State} {r : Nat} {f : Word → Except FaultCause α}
    (h : s.isWritten r = true) : (regRead s r >>= f) = f (s.reg r) := by
  rw [regRead_of_written h, except_ok_bind]

section FirstUnwritten

variable {s : State} {q r : Nat} {rest : List Nat}

theorem State.firstUnwritten_of_unwritten (h : s.isWritten q = false) : s.firstUnwritten (q :: rest) = some q :=
  List.find?_cons_of_pos (by simp [h])

theorem State.firstUnwritten_of_written (h : s.isWritten q = true) :
    s.firstUnwritten (q :: rest) = s.firstUnwritten rest :=
  List.find?_cons_of_neg (by simp [h])

end FirstUnwritten

/-! ## The ALU instructions -/

section Alu

variable {s : State} {op : AluOp} {ra rb rc : Nat} (hrs : ∀ q ∈ [ra, rb, rc], q < 8)
include hrs

/-- With both operands written the ALU's result, read as a number, is what the destination gets (R81). -/
theorem aluInstruction_of_result {v : Word} {n : Nat} (hb : s.isWritten rb = true) (hc : s.isWritten rc = true)
    (hv : alu op (s.reg rb) (s.reg rc) = .ok v) (hn : v.toNat = n) :
    aluInstruction op ra rb rc s = .next (s.afterWriting ra (BitVec.ofNat 64 n)) := by
  refine complete_of_registers_fit_ok hrs ?_
  rw [regRead_bind_of_written hb, regRead_bind_of_written hc, hv, except_ok_bind, State.advance_regWrite,
    eq_ofNat_of_toNat_eq hn, except_pure_eq]

/-- With both operands written the ALU's failure is the instruction's fault (R82). -/
theorem aluInstruction_of_failure {c : FaultCause} (hb : s.isWritten rb = true) (hc : s.isWritten rc = true)
    (hv : alu op (s.reg rb) (s.reg rc) = .error c) : aluInstruction op ra rb rc s = faultTaken s c := by
  refine complete_of_registers_fit hrs ?_
  rw [regRead_bind_of_written hb, regRead_bind_of_written hc, hv, except_error_bind]

theorem aluInstruction_of_rb_unwritten (hb : s.isWritten rb = false) :
    aluInstruction op ra rb rc s = faultTaken s (.unwrittenRegister rb) :=
  aluInstruction_of_firstUnwritten hrs (State.firstUnwritten_of_unwritten hb)

theorem aluInstruction_of_rc_unwritten (hb : s.isWritten rb = true) (hc : s.isWritten rc = false) :
    aluInstruction op ra rb rc s = faultTaken s (.unwrittenRegister rc) :=
  aluInstruction_of_firstUnwritten hrs <|
    (State.firstUnwritten_of_written hb).trans (State.firstUnwritten_of_unwritten hc)

end Alu

/-- The 64-bit complement of a conjunction, as a number (R87). -/
theorem toNat_nand (b c : Word) : (~~~(b &&& c)).toNat = 2 ^ 64 - 1 - (b.toNat &&& c.toNat) := by
  rw [BitVec.toNat_not, BitVec.toNat_and]

theorem alu_div_of_ne_zero {b c : Word} (h : c.toNat ≠ 0) : alu .div b c = .ok (b / c) := by
  have hc : c ≠ 0#64 := fun e => h (congrArg BitVec.toNat e)
  simp [alu, isZero, hc]

theorem alu_div_of_eq_zero {b c : Word} (h : c.toNat = 0) : alu .div b c = .error (.divideByZero b) := by
  obtain rfl : c = 0#64 := eq_ofNat_of_toNat_eq h
  rfl

/-- Settles O14: the ALU's sum is taken modulo the word. -/
theorem addWritesTheSumModuloTheWord : Obligations.AddWritesTheSumModuloTheWord := by
  refine ⟨decode_threeRegister (op := .add) rfl fun _ => rfl, fun s ra rb rc ha hb hc => ?_⟩
  have hrs := registers_lt_of_lt ha hb hc
  exact ⟨fun wb wc => aluInstruction_of_result hrs wb wc rfl (BitVec.toNat_add _ _),
    aluInstruction_of_rb_unwritten hrs, aluInstruction_of_rc_unwritten hrs⟩

/-- Settles O15: the ALU's product is taken modulo the word. -/
theorem mulWritesTheProductModuloTheWord : Obligations.MulWritesTheProductModuloTheWord := by
  refine ⟨decode_threeRegister (op := .mul) rfl fun _ => rfl, fun s ra rb rc ha hb hc => ?_⟩
  have hrs := registers_lt_of_lt ha hb hc
  exact ⟨fun wb wc => aluInstruction_of_result hrs wb wc rfl (BitVec.toNat_mul _ _),
    aluInstruction_of_rb_unwritten hrs, aluInstruction_of_rc_unwritten hrs⟩

/-- Settles O16: the ALU divides unsigned, and fails exactly for the divisor 0. -/
theorem divWritesTheUnsignedQuotient : Obligations.DivWritesTheUnsignedQuotient := by
  refine ⟨decode_threeRegister (op := .div) rfl fun _ => rfl, fun s ra rb rc ha hb hc => ?_⟩
  have hrs := registers_lt_of_lt ha hb hc
  exact ⟨fun wb wc hz => aluInstruction_of_result hrs wb wc (alu_div_of_ne_zero hz) BitVec.toNat_udiv,
    fun wb wc hz => aluInstruction_of_failure hrs wb wc (alu_div_of_eq_zero hz),
    aluInstruction_of_rb_unwritten hrs, aluInstruction_of_rc_unwritten hrs⟩

/-- Settles O17: the complement of a word counts down from the largest one. -/
theorem nandWritesTheComplementOfTheConjunction : Obligations.NandWritesTheComplementOfTheConjunction := by
  refine ⟨decode_threeRegister (op := .nand) rfl fun _ => rfl, fun s ra rb rc ha hb hc => ?_⟩
  have hrs := registers_lt_of_lt ha hb hc
  exact ⟨fun wb wc => aluInstruction_of_result hrs wb wc rfl (toNat_nand _ _),
    aluInstruction_of_rb_unwritten hrs, aluInstruction_of_rc_unwritten hrs⟩

/-! ## CMov -/

section Cmov

variable {s : State} {ra rb rc : Nat} (hrs : ∀ q ∈ [ra, rb, rc], q < 8)
include hrs

theorem execCmov_of_condition (hc : s.isWritten rc = true) (hz : s.reg rc ≠ 0#64) (hb : s.isWritten rb = true) :
    execCmov ra rb rc s = .next (s.afterWriting ra (s.reg rb)) := by
  refine complete_of_registers_fit_ok hrs ?_
  have hfalse : ¬ isZero (s.reg rc) = true := by simp [isZero, hz]
  rw [regRead_bind_of_written hc, if_neg hfalse, regRead_bind_of_written hb, State.advance_regWrite, except_pure_eq]

/-- Without the condition `rb` is not read (D6). -/
theorem execCmov_of_no_condition (hc : s.isWritten rc = true) (hz : s.reg rc = 0#64) :
    execCmov ra rb rc s = .next s.advance := by
  refine complete_of_registers_fit_ok hrs ?_
  have htrue : isZero (s.reg rc) = true := by simp [isZero, hz]
  rw [regRead_bind_of_written hc, if_pos htrue, except_pure_eq]

theorem execCmov_of_rc_unwritten (hc : s.isWritten rc = false) :
    execCmov ra rb rc s = faultTaken s (.unwrittenRegister rc) := by
  refine execCmov_of_firstUnwritten hrs ?_
  by_cases hz : s.reg rc = 0#64
  · rw [registersRead, if_pos hz, State.firstUnwritten_of_unwritten hc]
  · rw [registersRead, if_neg hz, State.firstUnwritten_of_unwritten hc]

theorem execCmov_of_rb_unwritten (hc : s.isWritten rc = true) (hz : s.reg rc ≠ 0#64) (hb : s.isWritten rb = false) :
    execCmov ra rb rc s = faultTaken s (.unwrittenRegister rb) := by
  refine execCmov_of_firstUnwritten hrs ?_
  rw [registersRead, if_neg hz, State.firstUnwritten_of_written hc, State.firstUnwritten_of_unwritten hb]

end Cmov

/-- Settles O13: one lemma per case of the condition and of the registers it makes CMov read. -/
theorem cmovMovesWhenTheConditionHolds : Obligations.CmovMovesWhenTheConditionHolds := by
  refine ⟨decode_threeRegister (op := .cmov) rfl fun _ => rfl, fun s ra rb rc ha hb hc => ?_⟩
  have hrs := registers_lt_of_lt ha hb hc
  exact ⟨execCmov_of_condition hrs, execCmov_of_no_condition hrs, execCmov_of_rc_unwritten hrs,
    execCmov_of_rb_unwritten hrs⟩

/-! ## LV -/

/-- The zero extension of a 25-bit immediate has its value (R59). -/
theorem immediateWord_eq {imm : Nat} (h : imm < 2 ^ 25) : immediateWord imm = BitVec.ofNat 64 imm := by
  refine eq_ofNat_of_toNat_eq ?_
  rw [immediateWord, BitVec.toNat_setWidth_of_le (by decide), BitVec.toNat_ofNat, Nat.mod_eq_of_lt h]

theorem execLv_of_lt {s : State} {rd imm : Nat} (hd : rd < 8) :
    execLv rd imm s = .next (s.afterWriting rd (immediateWord imm)) :=
  complete_of_registers_fit_ok (by simp [hd]) rfl

/-- Settles O18: LV checks one register number and reads no register. -/
theorem lvWritesTheZeroExtendedImmediate : Obligations.LvWritesTheZeroExtendedImmediate := by
  refine ⟨fun w h => ?_, fun s rd imm hd hi => ?_⟩
  · rw [decode_of_fieldAt (op := .lv) rfl h, fieldAt_rd, fieldAt_imm, Opcode.operands]
  · rw [← immediateWord_eq hi]
    exact execLv_of_lt hd

end Sys2Proof.Machine

/-! The statements of 42_segment_memory.md: Load, Store, MapSeg and UnmapSeg, each as one memory operation on the values of its
written source registers, and the release of segment 0. -/

namespace Sys2Proof.Machine

/-! ## The allocator's operations, one equation per case -/

section Alloc

variable {c : Capacity} {m : Memory} {n : Nat}

theorem alloc_of_not_admitted (hc : c.admits m n = false) : alloc c m n = .error (.allocFailed n) := by
  simp [alloc, hc]

/-- With an empty pool and every id minted there is no id left (R37). -/
theorem alloc_of_no_id_left (hpool : m.free = []) (hnext : m.nextId = wordLimit) : alloc c m n = .error (.allocFailed n) := by
  simp [alloc, hpool, hnext]

/-- An empty pool mints the next id (R37). -/
theorem alloc_of_empty_pool (hn : n < wordLimit) (hc : c.admits m n = true) (hpool : m.free = []) (hnext : m.nextId < wordLimit) :
    alloc c m n = .ok (BitVec.ofNat 64 m.nextId,
      { m with nextId := m.nextId + 1 }.setSegment (BitVec.ofNat 64 m.nextId) (Segment.zeros n)) := by
  simp only [alloc, hn, hc, hpool, hnext, and_self, if_true]

/-- The id an allocation answers and the bookkeeping after it: the top of the pool, else the next id (R37). -/
theorem alloc_bookkeeping {id : Word} {rest : List Word} (hn : n < wordLimit) (hc : c.admits m n = true)
    (hid : m.free = id :: rest ∨ (m.free = [] ∧ rest = [] ∧ m.nextId < wordLimit ∧ id = BitVec.ofNat 64 m.nextId)) :
    ∃ m', alloc c m n = .ok (id, m') ∧ m'.free = rest ∧ m'.nextId = if m.free = [] then m.nextId + 1 else m.nextId := by
  obtain hpool | ⟨hpool, rfl, hnext, rfl⟩ := hid
  · exact ⟨_, alloc_of_pool hn hc hpool, rfl, by simp [hpool]⟩
  · exact ⟨_, alloc_of_empty_pool hn hc hpool hnext, hpool, by simp [hpool]⟩

end Alloc

theorem release_of_live {m : Memory} {s : Word} (h : m.live s = true) :
    release m s = .ok { m with segs := assocErase m.segs s.toNat, free := s :: m.free } :=
  release_ok_iff.2 ⟨h, rfl⟩

theorem release_of_not_live {m : Memory} {s : Word} (h : m.live s = false) : release m s = .error (.invalidRelease s) := by
  simp [release, h]

/-- A released id is not live (R38). -/
theorem release_not_live {m m' : Memory} {s : Word} (h : release m s = .ok m') : m'.live s = false := by
  obtain ⟨-, rfl⟩ := release_ok_iff.1 h
  exact Memory.segment_eq_none_iff.1 (m.segment_erase_self s _)

/-! ## An instruction that rests on one operation -/

section Complete

variable {α : Type} {s : State} {f : α → State} {r : Except FaultCause α}

theorem complete_map_of_ok {a : α} (h : r = .ok a) : complete s (f <$> r) = .next (f a) := by
  subst h; rfl

theorem complete_map_of_error {c : FaultCause} (h : r = .error c) : complete s (f <$> r) = faultTaken s c := by
  subst h; rfl

end Complete

/-- `s` after an instruction that completes with memory `m` and `pc <- pc + 1` and changes nothing else (R78). -/
def State.afterMemory (s : State) (m : Memory) : State := { s with mem := m, pc := s.pc + 1#64 }

/-- `s` after a MapSeg into register `r` that was answered the id and the memory `answer` (R91). -/
def State.afterAlloc (s : State) (r : Nat) (answer : Word × Memory) : State :=
  { s with mem := answer.2 }.afterWriting r answer.1

section Written

variable {s : State} {ra rb rc : Nat}

/-- With its sources written Load is one MemRead (R89). -/
theorem exec_load_of_written (hrs : ∀ q ∈ [ra, rb, rc], q < 8) (hb : s.isWritten rb = true) (hc : s.isWritten rc = true) :
    exec (.load ra rb rc) s = complete s (s.afterWriting ra <$> memRead .load s.mem (s.reg rb) (s.reg rc)) := by
  rw [exec, execLoad, checkRegisters_ok_iff.2 hrs, except_ok_bind, regRead_bind_of_written hb, regRead_bind_of_written hc,
    map_eq_pure_bind]
  rfl

/-- With its sources written Store is one MemWrite (R90). -/
theorem exec_store_of_written (hrs : ∀ q ∈ [ra, rb, rc], q < 8) (ha : s.isWritten ra = true) (hb : s.isWritten rb = true)
    (hc : s.isWritten rc = true) :
    exec (.store ra rb rc) s = complete s (s.afterMemory <$> memWrite .store s.mem (s.reg ra) (s.reg rb) (s.reg rc)) := by
  rw [exec, execStore, checkRegisters_ok_iff.2 hrs, except_ok_bind, regRead_bind_of_written ha, regRead_bind_of_written hb,
    regRead_bind_of_written hc, map_eq_pure_bind]
  rfl

/-- With its length written MapSeg is one Alloc (R91). -/
theorem exec_mapseg_of_written (hrs : ∀ q ∈ [rb, rc], q < 8) (hc : s.isWritten rc = true) :
    exec (.mapseg rb rc) s = complete s (s.afterAlloc rb <$> alloc s.capacity s.mem (s.reg rc).toNat) := by
  rw [exec, execMapseg, checkRegisters_ok_iff.2 hrs, except_ok_bind, regRead_bind_of_written hc, map_eq_pure_bind]
  rfl

/-- With its id written UnmapSeg is one Release (R92). -/
theorem exec_unmapseg_of_written (hrs : ∀ q ∈ [rc], q < 8) (hc : s.isWritten rc = true) :
    exec (.unmapseg rc) s = complete s (s.afterMemory <$> release s.mem (s.reg rc)) := by
  rw [exec, execUnmapseg, checkRegisters_ok_iff.2 hrs, except_ok_bind, regRead_bind_of_written hc, map_eq_pure_bind]
  rfl

end Written

/-! ## Load and Store -/

/-- Settles O19: the cases of MemRead, and of the two registers read before it. -/
theorem loadReadsTheAddressedWord : Obligations.LoadReadsTheAddressedWord := by
  refine ⟨decode_threeRegister (op := .load) rfl fun _ => rfl, fun s ra rb rc ha hb hc => ?_⟩
  have hrs := registers_lt_of_lt ha hb hc
  refine ⟨fun wb wc => ?_, fun ub => ?_, fun wb uc => ?_⟩
  · rw [exec_load_of_written hrs wb wc]
    exact ⟨fun g hg hi => complete_map_of_ok (memRead_of_lt hg hi),
      fun g hg hi => complete_map_of_error (memRead_of_length_le hg hi),
      fun hlive => complete_map_of_error (memRead_of_not_live hlive)⟩
  · exact readOfAnUnwrittenRegisterFaults _ _ _ hrs (State.firstUnwritten_of_unwritten ub)
  · exact readOfAnUnwrittenRegisterFaults _ _ _ hrs <|
      (State.firstUnwritten_of_written wb).trans (State.firstUnwritten_of_unwritten uc)

/-- Settles O20: the cases of MemWrite with its frame, and of the three registers read before it. -/
theorem storeWritesTheAddressedWord : Obligations.StoreWritesTheAddressedWord := by
  refine ⟨decode_threeRegister (op := .store) rfl fun _ => rfl, fun s ra rb rc ha hb hc => ?_⟩
  have hrs := registers_lt_of_lt ha hb hc
  refine ⟨fun wa wb wc => ?_, fun ua => ?_, fun wa ub => ?_, fun wa wb uc => ?_⟩
  · rw [exec_store_of_written hrs wa wb wc]
    refine ⟨fun n hn hi => ?_, fun n hn hi => ?_, fun hlive => complete_map_of_error (memWrite_of_not_live hlive)⟩
    · obtain ⟨g, hg, rfl⟩ := Memory.lengthOf_eq_some_iff.1 hn
      have hm := memWrite_of_lt (a := .store) (v := s.reg rc) hg hi
      obtain ⟨hfree, hnext⟩ := memWrite_bookkeeping hm
      exact ⟨_, complete_map_of_ok hm, fun _ => memRead_memWrite_self hm, fun _ _ _ hne => memRead_memWrite_ne hm hne,
        memWrite_lengthOf hm, hfree, hnext⟩
    · obtain ⟨g, hg, rfl⟩ := Memory.lengthOf_eq_some_iff.1 hn
      exact complete_map_of_error (memWrite_of_length_le hg hi)
  · exact readOfAnUnwrittenRegisterFaults _ _ _ hrs (State.firstUnwritten_of_unwritten ua)
  · exact readOfAnUnwrittenRegisterFaults _ _ _ hrs <|
      (State.firstUnwritten_of_written wa).trans (State.firstUnwritten_of_unwritten ub)
  · exact readOfAnUnwrittenRegisterFaults _ _ _ hrs <| (State.firstUnwritten_of_written wa).trans <|
      (State.firstUnwritten_of_written wb).trans (State.firstUnwritten_of_unwritten uc)

/-! ## MapSeg and UnmapSeg -/

/-- Settles O21: the cases of Alloc with its frame; under the invariant its id was not live, so it is not a live segment 0's. -/
theorem mapsegAllocatesAZeroedSegment : Obligations.MapsegAllocatesAZeroedSegment := by
  refine ⟨fun w h => ?_, fun s rb rc hb hc => ?_⟩
  · rw [decode_of_fieldAt (op := .mapseg) rfl h, fieldAt_rb, fieldAt_rc, Opcode.operands]
  have hrs : ∀ q ∈ [rb, rc], q < 8 := by simp [hb, hc]
  refine ⟨fun wc hadmits => ?_, fun wc hrefused => ?_, fun uc => ?_⟩
  · rw [exec_mapseg_of_written hrs wc]
    refine ⟨fun id rest hid => ?_, fun hpool hnext => complete_map_of_error (alloc_of_no_id_left hpool hnext)⟩
    obtain ⟨m, hm, hfree, hnext⟩ := alloc_bookkeeping (s.reg rc).isLt hadmits hid
    have hself : m.segment id = some (Segment.zeros (s.reg rc).toNat) := alloc_segment_self hm
    refine ⟨m, complete_map_of_ok hm, Memory.lengthOf_eq_some_iff.2 ⟨_, hself, rfl⟩, fun _ _ hi => memRead_of_lt hself hi,
      fun id' hne => Memory.observe_congr (alloc_segment_ne hm hne), hfree, hnext, fun hs hlive hzero => ?_⟩
    have hnew : s.mem.live id = false := alloc_not_live hs.allocator hm
    rw [hzero, hlive] at hnew
    cases hnew
  · rw [exec_mapseg_of_written hrs wc]
    exact complete_map_of_error (alloc_of_not_admitted hrefused)
  · exact readOfAnUnwrittenRegisterFaults _ _ _ hrs (State.firstUnwritten_of_unwritten uc)

/-- Settles O22: the cases of Release with its frame. -/
theorem unmapsegReleasesALiveSegment : Obligations.UnmapsegReleasesALiveSegment := by
  refine ⟨fun w h => ?_, fun s rc hc => ?_⟩
  · rw [decode_of_fieldAt (op := .unmapseg) rfl h, fieldAt_rc, Opcode.operands]
  have hrs : ∀ q ∈ [rc], q < 8 := by simp [hc]
  refine ⟨fun wc hlive => ?_, fun wc hlive => ?_, fun uc => ?_⟩
  · rw [exec_unmapseg_of_written hrs wc]
    have hm := release_of_live hlive
    exact ⟨_, complete_map_of_ok hm, release_not_live hm, fun id' hne => Memory.observe_congr (release_segment_ne hm hne),
      rfl, rfl⟩
  · rw [exec_unmapseg_of_written hrs wc]
    exact complete_map_of_error (release_of_not_live hlive)
  · exact readOfAnUnwrittenRegisterFaults _ _ _ hrs (State.firstUnwritten_of_unwritten uc)

/-- Settles O42: Release has no exception for id 0, and the fetch that follows finds it not live. -/
theorem releasingSegmentZeroFaultsTheNextFetch : Obligations.ReleasingSegmentZeroFaultsTheNextFetch := by
  intro s rc hrun hc wc hzero hlive
  obtain ⟨-, hunmapseg⟩ := unmapsegReleasesALiveSegment
  obtain ⟨hrelease, -, -⟩ := hunmapseg s rc hc
  rw [hzero] at hrelease
  obtain ⟨m, hm, hgone, -, -, -⟩ := hrelease wc hlive
  obtain ⟨hfetch, -⟩ := fetchOutsideTheProgramFaults { s with mem := m, pc := s.pc + 1#64 } hrun
  exact ⟨_, hm, hrun, hgone, hfetch hgone⟩

end Sys2Proof.Machine

/-! The statements of 43_control.md: LP as one Duplicate and a jump, the words with an invalid opcode, and HALT. -/

namespace Sys2Proof.Machine

/-! ## LP -/

section LoadProgram

variable {s : State} {b : Word}

/-- With the source id 0 there is nothing to copy (R94; C5). -/
theorem loadProgram_of_eq_zero (h : b = 0#64) : loadProgram s b = .ok s.mem := by
  subst h; rfl

/-- Every other source id is duplicated into segment 0 (R94). -/
theorem loadProgram_of_ne_zero (h : b ≠ 0#64) : loadProgram s b = duplicate s.capacity s.mem b 0#64 :=
  if_neg (by simpa [isZero] using h)

end LoadProgram

/-- `s` after an LP that left the memory `m` and jumped to `target`, and changed nothing else (R94). -/
def State.afterLoadProgram (s : State) (target : Word) (m : Memory) : State := { s with mem := m, pc := target }

/-- With its sources written LP is the load of the program segment and a jump (R94). -/
theorem exec_lp_of_written {s : State} {rb rc : Nat} (hrs : ∀ q ∈ [rb, rc], q < 8) (hb : s.isWritten rb = true)
    (hc : s.isWritten rc = true) :
    exec (.lp rb rc) s = complete s (s.afterLoadProgram (s.reg rc) <$> loadProgram s (s.reg rb)) := by
  rw [exec, execLp, checkRegisters_ok_iff.2 hrs, except_ok_bind, regRead_bind_of_written hb, regRead_bind_of_written hc,
    map_eq_pure_bind]
  rfl

/-- Duplicate neither takes from the pool nor puts back (R41). -/
theorem duplicate_free {c : Capacity} {m m' : Memory} {f t : Word} (h : duplicate c m f t = .ok m') : m'.free = m.free := by
  obtain ⟨g, -, -, -, rfl⟩ := duplicate_ok_iff.1 h
  rfl

/-- After Duplicate the target has the source's length (R41). -/
theorem duplicate_lengthOf_self {c : Capacity} {m m' : Memory} {f t : Word} (h : duplicate c m f t = .ok m') :
    m'.lengthOf t = m.lengthOf f :=
  congrArg (Option.map Segment.length) (duplicate_segment_self h)

/-- Settles O24: the jump for source id 0, else the cases of Duplicate with its frame, and of the two registers read before it. -/
theorem lpLoadsAProgramAndJumps : Obligations.LpLoadsAProgramAndJumps := by
  refine ⟨fun w h => ?_, fun s rb rc hb hc => ?_⟩
  · rw [decode_of_fieldAt (op := .lp) rfl h, fieldAt_rb, fieldAt_rc, Opcode.operands]
  have hrs : ∀ q ∈ [rb, rc], q < 8 := by simp [hb, hc]
  refine ⟨fun wb wc => ?_, fun ub => ?_, fun wb uc => ?_⟩
  · rw [exec_lp_of_written hrs wb wc]
    refine ⟨fun hz => complete_map_of_ok (loadProgram_of_eq_zero hz), fun hz hsource => ?_, fun n hz hn htarget => ?_,
      fun n hz hn htarget hfull => ?_, fun n hz hn htarget hfits => ?_⟩
    · exact complete_map_of_error ((loadProgram_of_ne_zero hz).trans (duplicate_of_source_not_live hsource))
    · obtain ⟨g, hg, rfl⟩ := Memory.lengthOf_eq_some_iff.1 hn
      exact complete_map_of_error ((loadProgram_of_ne_zero hz).trans (duplicate_of_target_not_live hg htarget))
    · obtain ⟨g, hg, rfl⟩ := Memory.lengthOf_eq_some_iff.1 hn
      exact complete_map_of_error ((loadProgram_of_ne_zero hz).trans (duplicate_of_not_admitted hg htarget hfull))
    · obtain ⟨g, hg, rfl⟩ := Memory.lengthOf_eq_some_iff.1 hn
      have hm : duplicate s.capacity s.mem (s.reg rb) 0#64 = .ok (s.mem.setSegment 0#64 g) :=
        duplicate_ok_iff.2 ⟨g, hg, htarget, hfits, rfl⟩
      exact ⟨_, complete_map_of_ok ((loadProgram_of_ne_zero hz).trans hm), (duplicate_lengthOf_self hm).trans hn,
        fun _ _ _ => memRead_ok_iff_of_segment_eq (duplicate_segment_self hm),
        fun _ hid => Memory.observe_congr (duplicate_segment_ne hm hid), duplicate_free hm, duplicate_nextId hm⟩
  · exact readOfAnUnwrittenRegisterFaults _ _ _ hrs (State.firstUnwritten_of_unwritten ub)
  · exact readOfAnUnwrittenRegisterFaults _ _ _ hrs <|
      (State.firstUnwritten_of_written wb).trans (State.firstUnwritten_of_unwritten uc)

/-! ## The invalid opcodes -/

/-- The opcodes past the table are 14 and 15 (R60, R61). -/
theorem decodeOpcode_eq_invalid_iff {w : InstrWord} : decodeOpcode w = .invalid ↔ opcodeBits w = 14 ∨ opcodeBits w = 15 := by
  constructor
  · intro h
    have hdefined : ¬ opcodeBits w ≤ 13 := fun hle => opcodeOfNumber_ne_invalid hle h
    have hlt := opcodeBits_lt w
    omega
  · rintro (h | h)
    · rw [decodeOpcode, h]; rfl
    · rw [decodeOpcode, h]; rfl

/-- The 28 bits below the opcode field (R95). -/
theorem fieldAt_belowOpcode (w : InstrWord) : fieldAt w 27 0 = belowOpcode w := by
  rw [fieldAt, belowOpcode_eq, Nat.pow_zero, Nat.div_one]

/-- The word rebuilt from a word's opcode and its other bits is that word, so its fault names the word fetched (R95). -/
theorem raiseInvalidOpcode_of_opcodeBits {w : InstrWord} {op : Nat} (h : opcodeBits w = op) (s : State) :
    raiseInvalidOpcode op (belowOpcode w) s = faultTaken s (.invalidOpcode w) := by
  have hword : packInvalid op (belowOpcode w) = w := h ▸ packInvalid_fields_of_word w
  exact congrArg (fun v => faultTaken s (.invalidOpcode v)) hword

/-- Settles O25: the two numbers past the opcode table, each with the word its constructor keeps. -/
theorem invalidOpcodesFault : Obligations.InvalidOpcodesFault := by
  intro w
  rw [fieldAt_opcode, fieldAt_belowOpcode]
  exact ⟨decodeOpcode_eq_invalid_iff,
    fun h => ⟨decode_of_opcodeBits_eq_14 h, raiseInvalidOpcode_of_opcodeBits h⟩,
    fun h => ⟨decode_of_opcodeBits_eq_15 h, raiseInvalidOpcode_of_opcodeBits h⟩⟩

/-! ## HALT -/

/-- Settles O23: opcode 7 names HALT, which takes no operand and checks none. -/
theorem haltHalts : Obligations.HaltHalts :=
  ⟨fun _ h => decode_of_fieldAt (op := .halt) rfl h, fun _ => rfl⟩

end Sys2Proof.Machine

/-! The statements of 44_io.md: Out and In, each as one equation per case of its outcome. -/

namespace Sys2Proof.Machine

/-- An opcode with the one operand `rc` decodes to its instruction of `w[2:0]` (R55). -/
theorem decode_oneRegister {n : Nat} {op : Opcode} {make : Nat → Instr} (hop : opcodeOfNumber n = .defined op)
    (hmake : ∀ w, op.operands w = make (fieldRc w)) (w : InstrWord) (h : fieldAt w 31 28 = n) :
    decode w = make (fieldAt w 2 0) := by
  rw [decode_of_fieldAt hop h, hmake, fieldAt_rc]

theorem registers_lt_singleton {rc : Nat} (hc : rc < 8) : ∀ q ∈ [rc], q < 8 := by
  simp [hc]

/-! ## Out -/

theorem exceedsByte_iff {v : Word} : exceedsByte v = true ↔ 255 < v.toNat := by
  simp [exceedsByte]

/-- The byte Out emits is the low eight bits of the value, as a number (R96). -/
theorem byteOf_eq_ofNat (v : Word) : byteOf v = BitVec.ofNat 8 v.toNat :=
  (BitVec.ofNat_toNat 8 v).symm

section Out

variable {s : State} {rc : Nat} (hrs : ∀ q ∈ [rc], q < 8)
include hrs

theorem execOut_of_byte (wc : s.isWritten rc = true) (h : (s.reg rc).toNat ≤ 255) :
    execOut rc s =
      .next { s with output := s.output ++ [BitVec.ofNat 8 (s.reg rc).toNat], pc := s.pc + 1#64 } := by
  have hfits : ¬ exceedsByte (s.reg rc) = true := fun hx => Nat.not_lt.2 h (exceedsByte_iff.1 hx)
  refine complete_of_registers_fit_ok hrs ?_
  rw [regRead_bind_of_written wc, if_neg hfits, byteOf_eq_ofNat]
  rfl

theorem execOut_of_exceeding (wc : s.isWritten rc = true) (h : 255 < (s.reg rc).toNat) :
    execOut rc s = faultTaken s (.outputRange (s.reg rc)) := by
  refine complete_of_registers_fit hrs ?_
  rw [regRead_bind_of_written wc, if_pos (exceedsByte_iff.2 h)]

end Out

/-- Settles O26: Out's two cases split at 255, and before them the one register it reads. -/
theorem outEmitsOneByte : Obligations.OutEmitsOneByte := by
  refine ⟨decode_oneRegister (op := .out) rfl fun _ => rfl, fun s rc hc => ?_⟩
  have hrs := registers_lt_singleton hc
  exact ⟨execOut_of_byte hrs, execOut_of_exceeding hrs,
    fun uc => readOfAnUnwrittenRegisterFaults _ _ _ hrs (State.firstUnwritten_of_unwritten uc)⟩

/-! ## In -/

/-- A byte that In receives is zero-extended (R97). -/
theorem answerWord_byte (b : Byte) : answerWord (.byte b) = BitVec.ofNat 64 b.toNat :=
  (BitVec.ofNat_toNat 64 b).symm

/-- The sentinel of an end of input is the largest word (R97, D30). -/
theorem answerWord_eof : answerWord .eof = BitVec.ofNat 64 (2 ^ 64 - 1) := by decide

/-- With no answer to take In leaves the state as it is (R109; log 9). -/
theorem receive_of_no_answer (rc : Nat) (s : State) : receive rc s [] = s := rfl

/-- An answer is consumed and its word written, whatever the answer is (R97). -/
theorem receive_of_answer (rc : Nat) (s : State) (a : InAnswer) (rest : List InAnswer) :
    receive rc s (a :: rest) = { s with input := rest }.afterWriting rc (answerWord a) := rfl

/-- In reads no register: past the check of its number it is one look at the answers (R97). -/
theorem execInput_of_lt {s : State} {rc : Nat} (hc : rc < 8) : execInput rc s = .next (receive rc s s.input) :=
  complete_of_registers_fit_ok (registers_lt_singleton hc) rfl

theorem execInput_of_answer {s : State} {rc : Nat} {a : InAnswer} {rest : List InAnswer} (hc : rc < 8)
    (h : s.input = a :: rest) :
    execInput rc s = .next ({ s with input := rest }.afterWriting rc (answerWord a)) := by
  rw [execInput_of_lt hc, h, receive_of_answer]

/-- Settles O27: one course for both answers, which differ in the word written. -/
theorem inReceivesAByteOrTheSentinel : Obligations.InReceivesAByteOrTheSentinel := by
  refine ⟨decode_oneRegister (op := .input) rfl fun _ => rfl, fun s rc rest hc => ⟨fun b hb => ?_, fun heof => ?_⟩⟩
  · rw [← answerWord_byte]
    exact execInput_of_answer hc hb
  · rw [← answerWord_eof]
    exact execInput_of_answer hc heof

/-- Settles O28: `receive` of no answers, where In has nothing to write. -/
theorem inWaitsForAnAnswer : Obligations.InWaitsForAnAnswer := by
  intro s rc hc hnone
  rw [exec, execInput_of_lt hc, hnone, receive_of_no_answer]

end Sys2Proof.Machine

/-! The statement of 60_exceptions.md: the table of fault codes. -/

namespace Sys2Proof.Machine

/-- Settles O32: one row of R98's table per cause; the two causes of an access out of bounds share code 4. -/
theorem faultCodesFollowTheTable : Obligations.FaultCodesFollowTheTable :=
  ⟨fun _word => rfl, fun _dividend => rfl, fun _value => rfl,
    fun _seg _index _why _access => rfl, fun _register => rfl,
    fun _seg => rfl, fun _size => rfl, fun _register => rfl, fun _parts => rfl⟩

end Sys2Proof.Machine

/-! The statements of 70_reset_and_hazards.md: the self-test, the boot image, the boot load, and the reset sequence assembled from
one equation per phase of `step`. -/

namespace Sys2Proof.Machine

/-! ## The self-test -/

/-- The self-test reports exactly the required parts that are absent (R112). -/
theorem State.mem_missingParts_iff {s : State} {p : Part} :
    p ∈ s.missingParts ↔ s.requiresPart p = true ∧ s.hasPart p = false := by
  have hlisted : p ∈ [Part.processingUnit, .gpu, .memory, .storage] := by cases p <;> decide
  rw [State.missingParts, List.mem_filter, Bool.and_eq_true, Bool.not_eq_true']
  exact and_iff_right hlisted

section SelfTest

variable {s : State}

theorem State.processingUnit_mem_missingParts : .processingUnit ∈ s.missingParts ↔ s.parts.processingUnit = false :=
  State.mem_missingParts_iff.trans (and_iff_right rfl)

theorem State.memory_mem_missingParts : .memory ∈ s.missingParts ↔ s.parts.memory = false :=
  State.mem_missingParts_iff.trans (and_iff_right rfl)

theorem State.storage_mem_missingParts : .storage ∈ s.missingParts ↔ s.storage = [] := by
  rw [State.mem_missingParts_iff, State.hasPart, Bool.not_eq_false', List.isEmpty_iff]
  exact and_iff_right rfl

theorem State.gpu_mem_missingParts : .gpu ∈ s.missingParts ↔ s.parts.gpuConfigured = true ∧ s.parts.gpu = false :=
  State.mem_missingParts_iff

/-- No part is missing when the three parts every Machine needs are there, and a GPU where one is configured (R112). -/
theorem State.missingParts_eq_nil_iff :
    s.missingParts = [] ↔ s.parts.processingUnit = true ∧ s.parts.memory = true ∧ s.storage ≠ [] ∧
      (s.parts.gpuConfigured = true → s.parts.gpu = true) := by
  have hparts : (∀ p, p ∉ s.missingParts) ↔ .processingUnit ∉ s.missingParts ∧ .memory ∉ s.missingParts ∧
      .storage ∉ s.missingParts ∧ .gpu ∉ s.missingParts :=
    ⟨fun h => ⟨h _, h _, h _, h _⟩, fun ⟨hpu, hmem, hstore, hgpu⟩ p => by cases p <;> assumption⟩
  rw [List.eq_nil_iff_forall_not_mem, hparts, State.processingUnit_mem_missingParts, State.memory_mem_missingParts,
    State.storage_mem_missingParts, State.gpu_mem_missingParts, not_and, Bool.not_eq_false, Bool.not_eq_false,
    Bool.not_eq_false]

variable (hrun : s.run = .constructed)
include hrun

theorem step_of_constructed : step s = selfTest s := by
  simp [step, hrun]

theorem step_of_no_part_missing (h : s.missingParts = []) : step s = .next { s with run := .tested } :=
  (step_of_constructed hrun).trans (if_pos h)

theorem step_of_part_missing (h : s.missingParts ≠ []) :
    step s = .next (s.enterFault none (.missingPart s.missingParts)) :=
  (step_of_constructed hrun).trans (if_neg h)

end SelfTest

/-- Settles O2: the self-test decides by `missingParts`, whose members are the required parts that are absent. -/
theorem selfTestReportsEveryMissingPart : Obligations.SelfTestReportsEveryMissingPart := by
  intro s hrun
  rw [← State.missingParts_eq_nil_iff]
  exact ⟨step_of_no_part_missing hrun, fun h => ⟨s.missingParts, step_of_part_missing hrun h,
    State.processingUnit_mem_missingParts, State.memory_mem_missingParts, State.storage_mem_missingParts,
    State.gpu_mem_missingParts⟩⟩

/-! ## The boot image -/

/-- What `imageWords` ignores is less than a word (R113). -/
theorem length_lt_of_not_four_bytes {blob : List Byte}
    (h : ∀ (b0 b1 b2 b3 : Byte) (rest : List Byte), blob = b0 :: b1 :: b2 :: b3 :: rest → False) : blob.length < 4 := by
  match blob, h with
  | [], _ | [_], _ | [_, _], _ | [_, _, _], _ => simp
  | b0 :: b1 :: b2 :: b3 :: rest, h => exact (h b0 b1 b2 b3 rest rfl).elim

/-- Four bytes make a word, and the trailing part of one makes none (R113). -/
theorem imageWords_length (blob : List Byte) : (imageWords blob).length = blob.length / 4 := by
  induction blob using imageWords.induct with
  | case1 b0 b1 b2 b3 rest ih =>
    simp only [imageWords, List.length_cons, ih]
    omega
  | case2 blob hshort =>
    rw [imageWords, Nat.div_eq_of_lt (length_lt_of_not_four_bytes hshort), List.length_nil]
    exact hshort

/-- Word `k` is made of the four bytes from index `4k` on (R113). -/
theorem imageWords_getElem? {blob : List Byte} {k : Nat} {b0 b1 b2 b3 : Byte} (h0 : blob[4 * k]? = some b0)
    (h1 : blob[4 * k + 1]? = some b1) (h2 : blob[4 * k + 2]? = some b2) (h3 : blob[4 * k + 3]? = some b3) :
    (imageWords blob)[k]? = some (wordOfBytes b0 b1 b2 b3) := by
  induction blob using imageWords.induct generalizing k with
  | case1 a0 a1 a2 a3 rest ih =>
    cases k with
    | zero =>
      cases h0; cases h1; cases h2; cases h3
      rfl
    | succ k => exact ih h0 h1 h2 h3
  | case2 blob hshort =>
    have hlt := length_lt_of_not_four_bytes hshort
    have h3lt := (List.getElem?_eq_some_iff.1 h3).1
    omega

/-- Settles O3: one induction for the number of words, one for the bytes of each, which `wordOfBytes` reads big-endian. -/
theorem bootImageIsBigEndianWords : Obligations.BootImageIsBigEndianWords := by
  refine fun blob => ⟨imageWords_length blob, fun k b0 b1 b2 b3 h0 h1 h2 h3 => ?_⟩
  rw [imageWords_getElem? h0 h1 h2 h3, ← wordOfBytes_toNat, BitVec.ofNat_toNat, BitVec.setWidth_eq]

/-! ## The boot load -/

section BootLoad

variable {s : State} {blob : List Byte} {more : List (List Byte)} (hrun : s.run = .tested) (hstorage : s.storage = blob :: more)
include hrun hstorage

/-- In the phase before the boot load a step loads the image of the first device (R113). -/
theorem step_of_loadImage_ok {m : Memory} (h : loadImage s.capacity s.mem blob = .ok m) :
    step s = .next { s with mem := m, pc := 0#64, run := .ready } := by
  simp [step, bootLoad, hrun, hstorage, h]

theorem step_of_loadImage_error {c : FaultCause} (h : loadImage s.capacity s.mem blob = .error c) :
    step s = .next (s.enterFault none c) := by
  simp [step, bootLoad, hrun, hstorage, h]

end BootLoad

/-- An image that the capacity refuses fails at its allocation, before any write (R37, R113). -/
theorem loadImage_of_not_admitted {c : Capacity} {m : Memory} {blob : List Byte} (h : c.admits m (blob.length / 4) = false) :
    loadImage c m blob = .error (.allocFailed (blob.length / 4)) := by
  rw [loadImage, imageWords_length, alloc_of_not_admitted h, except_error_bind]

/-- Settles O5: the refused allocation is the cause of the fault. -/
theorem bootImageThatDoesNotFitFaults : Obligations.BootImageThatDoesNotFitFaults :=
  fun _ _ _ hrun hstorage _ hfull => step_of_loadImage_error hrun hstorage (loadImage_of_not_admitted hfull)

/-! ## The reset sequence -/

/-- The state the first instruction sees when the boot load has left memory `m` (R114). -/
def State.booted (s : State) (m : Memory) : State := { s with mem := m, pc := 0#64, run := .running }

/-- A step that answers is the first of a run's steps. -/
theorem run_succ_of_step {s t : State} (h : step s = .next t) (k : Nat) :
    Host.Core.run core (k + 1) s = Host.Core.run core k t := by
  simp only [Host.Core.run, core, h]

/-- Self-test, boot load and loop start are three steps when no part is missing and the image loads (R111; log 5, log 17). -/
theorem run_reset_sequence {s : State} {blob : List Byte} {more : List (List Byte)} {m : Memory} (hrun : s.run = .constructed)
    (hparts : s.missingParts = []) (hstorage : s.storage = blob :: more) (hload : loadImage s.capacity s.mem blob = .ok m) :
    Host.Core.run core 3 s = .next (s.booted m) := by
  have htest : step s = .next { s with run := .tested } := step_of_no_part_missing hrun hparts
  have hboot : step { s with run := .tested } = .next { s with mem := m, pc := 0#64, run := .ready } :=
    step_of_loadImage_ok (s := { s with run := .tested }) rfl hstorage hload
  have hstart : step { s with mem := m, pc := 0#64, run := .ready } = .next (s.booted m) := step_of_ready rfl
  calc Host.Core.run core 3 s
    _ = Host.Core.run core 2 { s with run := .tested } := run_succ_of_step htest 2
    _ = Host.Core.run core 1 { s with mem := m, pc := 0#64, run := .ready } := run_succ_of_step hboot 1
    _ = .next (s.booted m) := run_succ_of_step hstart 0

/-- After construction a register is marked as REGS_RESET_ZERO says, and the value behind the mark is 0 (R17; log 1). -/
theorem construct_register (parts : Parts) (storage : List (List Byte)) (input : List InAnswer) (capacity : Capacity)
    (z : Bool) {r : Nat} (hr : r < 8) :
    (State.construct parts storage input capacity z).isWritten r = z ∧
      (State.construct parts storage input capacity z).reg r = 0#64 := by
  simp [State.isWritten, State.reg, State.construct, hr]

/-- Where no other id has a segment, segment 0 alone is live (R34). -/
theorem Memory.live_iff_eq_zero {m : Memory} {g : Segment} (hg : m.segment 0#64 = some g)
    (hother : ∀ id, id ≠ 0#64 → m.segment id = none) (id : Word) : m.live id = true ↔ id = 0#64 := by
  rw [Memory.live_iff_segment]
  constructor
  · rintro ⟨g', hid⟩
    by_contra hne
    simp [hother id hne] at hid
  · rintro rfl
    exact ⟨g, hg⟩

/-- A word of the boot image reads back from its index in segment 0, zero-extended (R113). -/
theorem memRead_of_image_word {a : Access} {m : Memory} {g : Segment} {words : List InstrWord} {k : Nat} {w : InstrWord}
    (hg : m.segment 0#64 = some g) (hlen : g.length = words.length) (hlt : words.length < wordLimit)
    (hcells : ∀ j v, words[j]? = some v → g.get j = v.setWidth 64) (hw : words[k]? = some w) :
    memRead a m 0#64 (BitVec.ofNat 64 k) = .ok (BitVec.ofNat 64 w.toNat) := by
  have hk : k < words.length := (List.getElem?_eq_some_iff.1 hw).1
  have hindex : (BitVec.ofNat 64 k).toNat = k := toNat_ofNat_of_lt_wordLimit (hk.trans hlt)
  rw [memRead_of_lt hg (by rwa [hindex, hlen]), hindex, hcells k w hw, BitVec.ofNat_toNat]

/-- Settles O4: the three steps of `run_reset_sequence`, with the memory that `loadImage_constructed` describes. -/
theorem resetSequenceReachesTheFirstInstruction : Obligations.ResetSequenceReachesTheFirstInstruction := by
  intro parts blob more input capacity z hpu hmem hgpu hlt hfits
  rw [← imageWords_length] at hlt hfits
  obtain ⟨m, g, hload, hg, hlen, hcells, hother, hfree, hnext⟩ := loadImage_constructed hlt hfits
  have hparts : (State.construct parts (blob :: more) input capacity z).missingParts = [] :=
    State.missingParts_eq_nil_iff.2 ⟨hpu, hmem, List.cons_ne_nil _ _, hgpu⟩
  have hregister := fun (r : Nat) (hr : r < 8) => construct_register parts (blob :: more) input capacity z hr
  have hlength : m.lengthOf 0#64 = some (blob.length / 4) :=
    Memory.lengthOf_eq_some_iff.2 ⟨g, hg, hlen.trans (imageWords_length blob)⟩
  exact ⟨_, run_reset_sequence rfl hparts rfl hload, fun r hr => ⟨(hregister r hr).1, fun _ => (hregister r hr).2⟩,
    rfl, rfl, rfl, Memory.live_iff_eq_zero hg hother, hlength,
    fun _ _ _ => memRead_of_image_word hg hlen hlt hcells, hfree, hnext, rfl, rfl, rfl, rfl, rfl⟩

end Sys2Proof.Machine

namespace Sys2Proof.Machine

/-! ## Every outcome is a next state -/

/-- An instruction that completes and one that faults both answer a state (R72, R99; log 3). -/
theorem complete_answers (s : State) (r : Except FaultCause State) : ∃ t, complete s r = .next t := by
  cases r with
  | ok t => exact ⟨t, complete_ok s t⟩
  | error c => exact ⟨_, complete_error s c⟩

/-- Every instruction is of the form `complete s _`, the waiting In among them (log 9). -/
theorem exec_answers (i : Instr) (s : State) : ∃ t, exec i s = .next t := by
  obtain ⟨f, hf⟩ := exec_checks_registers i s
  rw [hf]
  exact complete_answers s _

/-- A machine that has passed the self-test has a storage device to boot from (R112). -/
theorem State.Inv.storage_ne_nil {s : State} (hs : s.Inv) (hrun : s.run = .tested) : s.storage ≠ [] := by
  obtain ⟨-, -, hstorage, -⟩ := State.missingParts_eq_nil_iff.1 (hs.parts_present hrun)
  exact hstorage

/-- With a device to boot from, the boot load answers a state: the loaded machine or the fault entry (R113). -/
theorem step_of_tested_answers {s : State} (hrun : s.run = .tested) (hstorage : s.storage ≠ []) : ∃ t, step s = .next t := by
  obtain ⟨blob, more, hblob⟩ := List.exists_cons_of_ne_nil hstorage
  cases hload : loadImage s.capacity s.mem blob with
  | ok m => exact ⟨_, step_of_loadImage_ok hrun hblob hload⟩
  | error c => exact ⟨_, step_of_loadImage_error hrun hblob hload⟩

/-- Settles O12: by the run state. Only the boot load has a stop, for want of a storage device, and `State.Inv.storage_ne_nil`
rules it out. -/
theorem stepAlwaysAnswersANextState : Obligations.StepAlwaysAnswersANextState := by
  refine ⟨fun s hs => ?_, exec_answers⟩
  cases hrun : s.run with
  | constructed =>
    by_cases hparts : s.missingParts = []
    · exact ⟨_, step_of_no_part_missing hrun hparts⟩
    · exact ⟨_, step_of_part_missing hrun hparts⟩
  | tested => exact step_of_tested_answers hrun (hs.storage_ne_nil hrun)
  | ready => exact ⟨_, step_of_ready hrun⟩
  | running =>
    cases hcell : s.fetchCell with
    | error c => exact ⟨_, step_of_fetchCell_error hrun hcell⟩
    | ok cell =>
      rw [step_of_fetchCell hrun hcell]
      exact exec_answers _ s
  | halted => exact ⟨s, step_of_halted hrun⟩
  | faulted => exact ⟨s, step_of_faulted hrun⟩

end Sys2Proof.Machine
